-- ==== Sys2Proof/Word.lean ====
section
/-! DEFINITION. The widths the source fixes (00_scope.md rule R3, 30_encoding.md rule R35). -/

namespace Sys2Proof

/-- A store word, an element value, an element index, the count: 64 bits (R3). -/
abbrev Word := BitVec 64

/-- One byte of a payload, and the width register BLEN: 8 bits (R3). -/
abbrev Byte := BitVec 8

/-- A command word, 136 bits (R35). -/
abbrev CommandWord := BitVec 136

end Sys2Proof
end

