-- ==== Sys2Proof/Syntax.lean ====
section
/-! DEFINITION. The commands of the block: a request as the host issues it, and the eight operations it stands for. -/

namespace Sys2Proof

/-- The payload-in of a request: a finite sequence of bytes, or of 64-bit words, or none (30_encoding.md rules R35, R41). -/
inductive Payload where
  | none
  | bytes (s : List Byte)
  | words (s : List Word)
  deriving DecidableEq, Repr

/-- A request: the 136-bit command word and the payload-in (30_encoding.md rule R35). -/
structure Request where
  cw : CommandWord
  payload : Payload
  deriving DecidableEq, Repr

/-- The eight operations, one constructor a row of opcode_table.json (30_encoding.md rule R37), each with the operands its
own rule reads; a payload-in is an operand. -/
inductive Instr where
  /-- NEW num, blen (0x01, R70) -/
  | new (num : Word) (blen : Byte)
  /-- GET index (0x02, R50) -/
  | get (index : Word)
  /-- SET index, value (0x03, R60) -/
  | set (index : Word) (value : Word)
  /-- BLEN (0x04, R78) -/
  | blen
  /-- NUM (0x05, R79) -/
  | num
  /-- ENCODE (0x06, R90) -/
  | encode
  /-- DECODE [bytes] (0x07, R93) -/
  | decode (bytes : List Byte)
  /-- NEWFROMARRAY [values] (0x08, R73) -/
  | newFromArray (values : List Word)
  deriving DecidableEq, Repr

end Sys2Proof
end

