-- ==== Sys2Proof/WellFormed.lean ====
section
/-! DEFINITION. Which instructions are commands of this block: the one bound the spec puts on an operand. -/

namespace Sys2Proof

/-- Every operand of a command word is legal as it stands (NEW answers an illegal width with a status, 42_construction.md
rule R70). The one bound is on the payload of NEWFROMARRAY: its length "is at most 2^64 - 1" (42_construction.md rule R73). -/
def Instr.wellFormed : Instr → Bool
  | .new _ _ => true
  | .get _ => true
  | .set _ _ => true
  | .blen => true
  | .num => true
  | .encode => true
  | .decode _ => true
  | .newFromArray values => decide (values.length < 2 ^ 64)

end Sys2Proof
end

