-- ==== Sys2Proof/Decode.lean ====
section
/-! DEFINITION. The command decoder, total on every request and rejecting by name, and the encoder beside it
(30_encoding.md rules R35, R37, R38, R39, R41). -/

namespace Sys2Proof

/-- Why a request stands for no operation. -/
inductive Reject where
  /-- The opcode is 0x00 or 0x09 to 0xFF (R39). The block answers BAD_OP. -/
  | reservedOpcode (op : Byte)
  /-- A NEWFROMARRAY payload of 2^64 or more values, which R73 says there is not (log entry 7, safe). -/
  | payloadTooLong
  deriving DecidableEq, Repr

/-- `op = CW[7:0]` (R35). -/
def opField (cw : CommandWord) : Byte := cw.extractLsb' 0 8

/-- `A = CW[71:8]` (R35). -/
def operandA (cw : CommandWord) : Word := cw.extractLsb' 8 64

/-- `B = CW[135:72]` (R35). -/
def operandB (cw : CommandWord) : Word := cw.extractLsb' 72 64

/-- `blen = B[7:0]` (R38); `B[63:8]` is ignored. -/
def widthOperand (b : Word) : Byte := b.extractLsb' 0 8

/-- The byte payload of a request; an absent one is the empty sequence (R41). DEDUCED (log entry 6, unsafe): a payload of
words is a payload "sent with any other opcode", which R41 ignores. -/
def bytePayload : Payload → List Byte
  | .none => []
  | .bytes s => s
  | .words _ => []

/-- The word payload of a request; an absent one is the empty sequence (R41). DEDUCED (log entry 6, unsafe), as for
`bytePayload`. -/
def wordPayload : Payload → List Word
  | .none => []
  | .bytes _ => []
  | .words s => s

/-- The decoder: `CW[7:0]` alone tells the operation (R37), operands are unsigned fields with no scaling (R38), unused
fields and unused payloads are ignored (R38, R41). -/
def decode (r : Request) : Except Reject Instr :=
  match (opField r.cw).toNat with
  | 1 => .ok (.new (operandA r.cw) (widthOperand (operandB r.cw)))
  | 2 => .ok (.get (operandA r.cw))
  | 3 => .ok (.set (operandA r.cw) (operandB r.cw))
  | 4 => .ok .blen
  | 5 => .ok .num
  | 6 => .ok .encode
  | 7 => .ok (.decode (bytePayload r.payload))
  | 8 =>
    if (Instr.newFromArray (wordPayload r.payload)).wellFormed then .ok (.newFromArray (wordPayload r.payload))
    else .error .payloadTooLong
  | _ => .error (.reservedOpcode (opField r.cw))

/-- The opcode of each operation (R37). -/
def Instr.opcode : Instr → Byte
  | .new _ _ => 0x01
  | .get _ => 0x02
  | .set _ _ => 0x03
  | .blen => 0x04
  | .num => 0x05
  | .encode => 0x06
  | .decode _ => 0x07
  | .newFromArray _ => 0x08

/-- The command word `{B, A, op}` (R35). -/
def commandWord (op : Byte) (a b : Word) : CommandWord := b ++ a ++ op

/-- The request that stands for an operation; unused fields are written as 0 (30_encoding.md rule R43). -/
def encode (i : Instr) : Request :=
  match i with
  | .new num blen => { cw := commandWord i.opcode num (blen.setWidth 64), payload := .none }
  | .get index => { cw := commandWord i.opcode index 0, payload := .none }
  | .set index value => { cw := commandWord i.opcode index value, payload := .none }
  | .blen => { cw := commandWord i.opcode 0 0, payload := .none }
  | .num => { cw := commandWord i.opcode 0 0, payload := .none }
  | .encode => { cw := commandWord i.opcode 0 0, payload := .none }
  | .decode bytes => { cw := commandWord i.opcode 0 0, payload := .bytes bytes }
  | .newFromArray values => { cw := commandWord i.opcode 0 0, payload := .words values }

/-- The request a word of the opcode table stands for: the low `nbits` bits of `w`, bit 0 being `CW[0]`, the bits above
zero, no payload (log entry 15). -/
def tableRequest (nbits w : Nat) : Request :=
  { cw := BitVec.ofNat 136 (w % 2 ^ nbits), payload := .none }

/-- The instruction the decoder reads from a word numbered as spec/opcode_table.json numbers it. -/
def decodeTableWord (nbits w : Nat) : Option Instr :=
  match decode (tableRequest nbits w) with
  | .ok i => some i
  | .error _ => none

end Sys2Proof
end

