-- ==== Sys2Proof/Machine/Operands.lean ====
section
/-! DEFINITION. Operand computations: the position decoder shared by GET and SET (20_memory.md rules R23, R24), the mask
(00_scope.md section 6), the word count (10_state.md rule R13) and width inference (42_construction.md rules R74, R75).
All arithmetic is exact, on natural numbers (D7, D8). -/

namespace Sys2Proof.Machine

open Sys2Proof

/-- `pos = index * BLEN`, exact (R23). -/
def position (blen index : Nat) : Nat := index * blen

/-- `block = pos div 64`, the word address (R23). -/
def blockOf (blen index : Nat) : Nat := position blen index / 64

/-- `offset = pos mod 64`, the bit offset in `W[block]` (R23). -/
def offsetOf (blen index : Nat) : Nat := position blen index % 64

/-- The element lies in two adjacent words (R24). -/
def straddles (blen index : Nat) : Bool := decide (64 < offsetOf blen index + blen)

/-- `mask(b) = 2^b - 1` as a 64-bit value, `0 ≤ b ≤ 64` (00_scope.md section 6). -/
def mask (b : Nat) : Word := BitVec.ofNat 64 (2 ^ b - 1)

/-- A value cut to its low BLEN bits; at BLEN = 64 it is taken as it is (41_inserter.md rule R61, 40_extractor.md rule R50). -/
def cutToWidth (blen : Nat) (v : Word) : Word := if blen < 64 then v &&& mask blen else v

/-- `ceil_div(a, b)` (00_scope.md section 5). -/
def ceilDiv (a b : Nat) : Nat := (a + b - 1) / b

/-- `ceil_div(num * blen, 64)`, exact (10_state.md rule R13, 42_construction.md rule R72). -/
def wordsNeeded (num blen : Nat) : Nat := ceilDiv (num * blen) 64

/-- One turn of the `dim` loop: `if v >= dim: dim = v + 1`, with no wrap (R73, R74). -/
def dimStep (dim : Nat) (v : Word) : Nat := if dim ≤ v.toNat then v.toNat + 1 else dim

/-- `dim` after the loop over the values in order, from 0 (R74). -/
def inferDim (values : List Word) : Nat := values.foldl dimStep 0

/-- The least b from 0 to 64 with `x div 2^b = 0` (R75); every x below 2^64 has one. -/
def leastWidth (x : Nat) : Nat := ((List.range 65).find? fun b => x / 2 ^ b == 0).getD 64

/-- The inferred width (R73, R75). -/
def inferWidth (values : List Word) : Nat :=
  if inferDim values ≤ 1 then 0 else leastWidth (inferDim values - 1)

end Sys2Proof.Machine
end

