-- ==== Sys2Proof/Config.lean ====
section
/-! DEFINITION. What an implementation fixes (DEPTH), and the values the spec leaves free. -/

namespace Sys2Proof

/-- The one open parameter of the hardware: the store's capacity `DEPTH` in 64-bit words (00_scope.md rule R4, D1). -/
structure Config where
  depth : Nat
  deriving DecidableEq, Repr

/-- The bounds R4 puts on `DEPTH`: 1 to 2^57 words. -/
abbrev Config.ok (c : Config) : Prop := 1 ≤ c.depth ∧ c.depth ≤ 2 ^ 57

/-- DESIGN CHOICE (log entry 1, unsafe): the `DEPTH` of `State.reset`. The spec leaves it open; 1024 is the value its own
test vectors use (95_test_vectors.md). -/
def Config.standard : Config := { depth := 1024 }

/-- Free value (log entry 4): what NUM holds after the k-th failed DECODE, UNSPECIFIED by 43_serializer.md rule R95. -/
opaque Config.freeNum : Nat → Word

/-- Free value (log entry 4): what BLEN holds after the k-th failed DECODE (R95). All 256 values are possible: the
invariants "are not promised for that state" (10_state.md rule R19). -/
opaque Config.freeBlen : Nat → Byte

/-- Free value (log entry 4): the words of the store after the k-th failed DECODE, from address 0 on (R95). -/
opaque Config.freeStore : Nat → List Word

end Sys2Proof
end

