-- ==== Sys2Proof/Machine/State.lean ====
section
/-! DEFINITION. The state of the block as plain data, the reasons a step can stop, and the state after reset. -/

namespace Sys2Proof.Machine

open Sys2Proof

/-- The store `W` (10_state.md rule R13): (word address, word) pairs in one canonical form, addresses strictly rising and no
entry equal to what an unlisted address reads as (`Memory.wf`). The store is word addressed (20_memory.md rule R20: "Nothing
smaller than a whole word is addressable"), so a cell is a word. Only addresses below `nwords` are architectural. -/
abbrev Memory := List (Nat × Word)

/-- The outcome of an operation (30_encoding.md rule R40). The numbers are `Status.code`; 0x06 to 0xFF are never produced. -/
inductive Status where
  | ok
  | invalidWidth
  /-- In the source's taxonomy; the block never produces it (43_serializer.md rule R91). -/
  | encodingError
  | decodeError
  | capacity
  | badOp
  deriving DecidableEq, Repr

/-- A response: status, 64-bit data, payload-out (30_encoding.md rule R36). -/
structure Response where
  status : Status
  data : Word
  payload : List Byte
  deriving DecidableEq, Repr

/-- What the host can give the block: a command, or a reset between commands (60_exceptions.md rule R117). -/
inductive HostInput where
  | command (r : Request)
  | reset
  deriving DecidableEq, Repr

/-- The whole state. `num`, `blen` and `store` are the block's architectural state (10_state.md rule R10); `unusable` is the
ghost mark of R19; `cfg` is the configuration (DEPTH, R4), which no step changes; `draws` counts the free values drawn (log
entry 4); `pending` and `responses` are the command port (log entry 8). -/
structure State where
  /-- the configuration: DEPTH -/
  cfg : Config
  /-- the register NUM, the element count (R11) -/
  num : Word
  /-- the register BLEN, the bit width (R12) -/
  blen : Byte
  /-- the store W (R13) -/
  store : Memory
  /-- the ghost mark: a DECODE has failed and nothing has rewritten the state since (R19) -/
  unusable : Bool
  /-- how many free values have been drawn (the model's own) -/
  draws : Nat
  /-- what the host has issued and the block has not taken, oldest first (the port) -/
  pending : List HostInput
  /-- the responses sent, oldest first (the port) -/
  responses : List Response
  deriving DecidableEq, Repr

/-- Why the machine stops with a fault. Each is a use of the block that the hardware does not detect and whose result the
spec leaves UNSPECIFIED (60_exceptions.md rule R116). All are safe. There is no fault for a word outside the architectural
store: no command that gets past these reaches one (20_memory.md rule R25). -/
inductive Fault where
  /-- Raised by GET with `index ≥ NUM` (40_extractor.md rule R53, U1; log entry 2). Safe: the hardware goes on. -/
  | getOutOfContract
  /-- Raised by SET with `index ≥ NUM` (41_inserter.md rule R64, U2; log entry 3). Safe: the hardware goes on. -/
  | setOutOfContract
  /-- Raised by GET, SET, BLEN, NUM and ENCODE while the state is unspecified after a failed DECODE (10_state.md rule R19,
  U3; log entry 5). Safe: the hardware goes on. -/
  | unusableState
  deriving DecidableEq, Repr

/-- Why a step has no meaning. -/
inductive Refusal where
  /-- An instruction whose meaning is not written. Raised by no arm of `exec`: every instruction has its meaning. Safe. -/
  | notModelled (mnemonic : String)
  /-- Raised by the command port on a NEWFROMARRAY payload of 2^64 or more values, which R73 says there is not (log entry 7).
  Safe. -/
  | payloadTooLong
  deriving DecidableEq, Repr

/-- The state after reset of a block of configuration `c` (10_state.md rule R16, 70_reset_and_hazards.md rule R120). -/
def State.resetWith (c : Config) : State where
  cfg := c
  num := 0
  blen := 0
  store := []
  unusable := false
  draws := 0
  pending := []
  responses := []

/-- The state after reset, DEPTH being `Config.standard` (log entry 1). -/
def State.reset : State := State.resetWith Config.standard

end Sys2Proof.Machine
end

