-- ==== Sys2Proof/Machine/Flags.lean ====
section
/-! DEFINITION. The block has no flags and no condition codes (10_state.md rule R15): an outcome is the status of its own
response. Here are the status numbers (30_encoding.md rule R40) and the checks that choose the status of the two
constructors, in their fixed order (60_exceptions.md rule R108). The checks of DECODE stand in Wire.lean, in stream order. -/

namespace Sys2Proof.Machine

open Sys2Proof

/-- The status numbers (R40). -/
def Status.code : Status → Byte
  | .ok => 0x00
  | .invalidWidth => 0x01
  | .encodingError => 0x02
  | .decodeError => 0x03
  | .capacity => 0x04
  | .badOp => 0x05

/-- The capacity check: OK, or CAPACITY when `ceil_div(num*blen, 64) > DEPTH` (42_construction.md rules R70, R72, R73). -/
def capacityStatus (depth num blen : Nat) : Status :=
  if depth < wordsNeeded num blen then .capacity else .ok

/-- The status of NEW: the width is tested before the capacity (42_construction.md rules R70, R71). -/
def newStatus (depth : Nat) (num : Word) (blen : Byte) : Status :=
  if 64 < blen.toNat then .invalidWidth else capacityStatus depth num.toNat blen.toNat

/-- The status of NEWFROMARRAY: only the capacity, after width inference (42_construction.md rules R73, R77). -/
def arrayStatus (depth : Nat) (values : List Word) : Status :=
  capacityStatus depth values.length (inferWidth values)

end Sys2Proof.Machine
end

