-- ==== Sys2Proof/Machine/Wire.lean ====
section
/-! DEFINITION. The wire format of an encoded vector (43_serializer.md rules R85 to R89): the bytes ENCODE writes, and the
stream reader of DECODE with its checks in the order of rule R93. -/

namespace Sys2Proof.Machine

open Sys2Proof

/-- The three fields of an encoded vector (R85). -/
structure EncodedVector where
  words : List Word
  num : Word
  blen : Byte
  deriving DecidableEq, Repr

/-- `le64(v)`: eight bytes, least-significant first (R86). -/
def le64 (v : Word) : List Byte := (List.range 8).map fun k => v.extractLsb' (8 * k) 8

/-- `from_le64(b)`: the sum of `b[k] * 2^(8k)` (00_scope.md section 6). -/
def fromLe64 : List Byte → Nat
  | [] => 0
  | b :: bs => b.toNat + 2 ^ 8 * fromLe64 bs

/-- The encoded vector: `0x01, le64(count), the words, 0x02, le64(num), 0x03, blen` (R86, R87, R88). -/
def wireBytes (v : EncodedVector) : List Byte :=
  [0x01] ++ le64 (BitVec.ofNat 64 v.words.length) ++ v.words.flatMap le64 ++
    [0x02] ++ le64 v.num ++ [0x03] ++ [v.blen]

/-- A tag is due: the rest of the stream after it, or DECODE_ERROR when the byte is missing or another one (R86, R93). -/
def expectTag (tag : Byte) : List Byte → Except Status (List Byte)
  | [] => .error .decodeError
  | b :: rest => if b = tag then .ok rest else .error .decodeError

/-- One byte is due (R93). -/
def expectByte : List Byte → Except Status (Byte × List Byte)
  | [] => .error .decodeError
  | b :: rest => .ok (b, rest)

/-- Eight bytes are due (R93). -/
def expectWord (s : List Byte) : Except Status (Word × List Byte) :=
  if s.length < 8 then .error .decodeError
  else .ok (BitVec.ofNat 64 (fromLe64 (s.take 8)), s.drop 8)

/-- `cnt` words are due (R93). A stream with too few bytes fails the same way whichever word it stops in. -/
def expectWords : Nat → List Byte → Except Status (List Word × List Byte)
  | 0, s => .ok ([], s)
  | cnt + 1, s =>
    match expectWord s with
    | .error e => .error e
    | .ok (w, s) =>
      match expectWords cnt s with
      | .error e => .error e
      | .ok (ws, s) => .ok (w :: ws, s)

/-- A check of DECODE: go on, or fail with a status. -/
def failIf (bad : Bool) (e : Status) : Except Status Unit := if bad then .error e else .ok ()

/-- DECODE's reading of its payload, check by check in the order of R93: the three fields and the bytes after them, which are
ignored (R96), or the status of the first check to fail (R94, R108). -/
def parseVector (depth : Nat) (s : List Byte) : Except Status (EncodedVector × List Byte) := do
  let s ← expectTag 0x01 s
  let (cnt, s) ← expectWord s
  failIf (depth < cnt.toNat) .capacity
  let (words, s) ← expectWords cnt.toNat s
  let s ← expectTag 0x02 s
  let (num, s) ← expectWord s
  let s ← expectTag 0x03 s
  let (blen, s) ← expectByte s
  failIf (64 < blen.toNat) .decodeError
  failIf (cnt.toNat != wordsNeeded num.toNat blen.toNat) .decodeError
  return ({ words := words, num := num, blen := blen }, s)

end Sys2Proof.Machine
end

