-- ==== Sys2Proof/Machine/Ops.lean ====
section
/-! DEFINITION. The named operations over the store and the registers: store access, the extractor's and the inserter's
datapaths, answering a command, reporting an error (the one shared operation for it), and the operations that rewrite the
whole state. -/

namespace Sys2Proof.Machine

open Sys2Proof

/-! ### The store -/

/-- What a word address with no entry reads as. Inside the architectural store that is the 0 NEW and NEWFROMARRAY write
(42_construction.md rule R70); no other word is ever read (log entry 9). -/
def Memory.unlisted : Word := 0

/-- The canonical form: addresses strictly rising, no entry equal to what an unlisted address reads as. -/
abbrev Memory.wf (m : Memory) : Prop :=
  m.Pairwise (fun p q => p.1 < q.1) ∧ ∀ p ∈ m, p.2 ≠ Memory.unlisted

/-- `W[a]` (00_scope.md section 6). -/
def Memory.read : Memory → Nat → Word
  | [], _ => Memory.unlisted
  | (b, w) :: m, a => if b = a then w else Memory.read m a

/-- An entry in front of the entries of higher addresses, left out where it says nothing. -/
def Memory.consCell (a : Nat) (v : Word) (m : Memory) : Memory :=
  if v = Memory.unlisted then m else (a, v) :: m

/-- `W[a] <- v` (00_scope.md section 6), keeping the canonical form. -/
def Memory.write : Memory → Nat → Word → Memory
  | [], a, v => Memory.consCell a v []
  | (b, w) :: m, a, v =>
    if a < b then Memory.consCell a v ((b, w) :: m)
    else if a = b then Memory.consCell a v m
    else (b, w) :: Memory.write m a v

/-- The store that holds the words of a list at addresses `a`, `a + 1`, ... -/
def Memory.ofWordsFrom : Nat → List Word → Memory
  | _, [] => []
  | a, w :: ws => Memory.consCell a w (Memory.ofWordsFrom (a + 1) ws)

/-- The store that holds the words of a list from address 0 on (43_serializer.md rule R93). -/
def Memory.ofWords (ws : List Word) : Memory := Memory.ofWordsFrom 0 ws

/-- The words `W[0]` to `W[n-1]`, in ascending address order (43_serializer.md rule R90). -/
def Memory.words (m : Memory) (n : Nat) : List Word := (List.range n).map (Memory.read m)

/-! ### The datapaths -/

/-- The extractor (40_extractor.md rule R50), for an element that lies in the store. -/
def extractElement (m : Memory) (blen index : Nat) : Word :=
  if blen = 0 then 0
  else
    let low := Memory.read m (blockOf blen index) >>> offsetOf blen index
    let joined :=
      if straddles blen index then
        low ||| Memory.read m (blockOf blen index + 1) <<< (64 - offsetOf blen index)
      else low
    cutToWidth blen joined

/-- The inserter (41_inserter.md rules R60, R61), for an element that lies in the store: the masked value is ORed in, low word
first, and nothing is cleared. -/
def insertElement (m : Memory) (blen index : Nat) (value : Word) : Memory :=
  if blen = 0 then m
  else
    let v := cutToWidth blen value
    let b := blockOf blen index
    let m' := Memory.write m b (Memory.read m b ||| v <<< offsetOf blen index)
    if straddles blen index then
      Memory.write m' (b + 1) (Memory.read m' (b + 1) ||| v >>> (64 - offsetOf blen index))
    else m'

/-- NEWFROMARRAY's load phase: SET i, values[i] in index order, from index `i` on (42_construction.md rules R73, R76). -/
def loadElements (blen : Nat) : Nat → List Word → Memory → Memory
  | _, [], m => m
  | i, v :: vs, m => loadElements blen (i + 1) vs (insertElement m blen i v)

/-! ### The registers and the response -/

/-- `nwords = ceil_div(NUM*BLEN, 64)`, the number of architectural words (10_state.md rule R13). -/
def State.nwords (s : State) : Nat := wordsNeeded s.num.toNat s.blen.toNat

/-- `respond(status, data, payload)`: one response leaves, after every earlier one (30_encoding.md rule R36, 20_memory.md
rule R30). -/
def State.respond (s : State) (status : Status) (data : Word) (payload : List Byte) : State :=
  { s with responses := s.responses ++ [{ status := status, data := data, payload := payload }] }

/-- `raise <Status>`, the one operation that reports an error: a response with data 0 and an empty payload-out, and nothing
else, no state saved and no control transferred (60_exceptions.md rules R105, R109). There is no return from it (R110). -/
def State.raise (s : State) (status : Status) : State := s.respond status 0 []

/-- The whole state is rewritten with a vector, and is usable (10_state.md rule R19). -/
def State.makeVector (s : State) (num : Word) (blen : Byte) (store : Memory) : State :=
  { s with num := num, blen := blen, store := store, unusable := false }

/-- A DECODE has failed: NUM, BLEN and the store hold free values and the ghost mark is set (43_serializer.md rule R95,
10_state.md rule R19; log entry 4). -/
def State.loseVector (s : State) : State :=
  { s with
    num := Config.freeNum s.draws
    blen := Config.freeBlen s.draws
    store := Memory.ofWords (Config.freeStore s.draws)
    unusable := true
    draws := s.draws + 1 }

/-- Reset between commands: NUM = 0, BLEN = 0, the store empty, the mark clear, no response (10_state.md rule R16,
70_reset_and_hazards.md rules R120, R121; log entry 10). -/
def State.resetBlock (s : State) : State := s.makeVector 0 0 []

/-! ### What a command may find in its way -/

/-- Why GET or SET of an element stops: the state is unspecified (10_state.md rule R19), or the index is out of contract
(`bounds`; 40_extractor.md rule R53, 41_inserter.md rule R64). Every other element lies in the architectural store
(20_memory.md rule R25), so no check of the word addresses is needed. -/
def State.elementFault (s : State) (index : Word) (bounds : Fault) : Option Fault :=
  if s.unusable then some .unusableState
  else if s.num.toNat ≤ index.toNat then some bounds
  else none

/-- A command that only reads the state answers OK, or stops where the state is unspecified (10_state.md rule R19). -/
def State.answerRead (s : State) (data : Word) (payload : List Byte) : Host.Outcome State Fault Refusal :=
  if s.unusable then .fault .unusableState else .next (s.respond .ok data payload)

end Sys2Proof.Machine
end

