-- ==== Sys2Proof/Machine/Construction.lean ====
section
/-! DEFINITION. NEW, NEWFROMARRAY, BLEN and NUM (42_construction.md). -/

namespace Sys2Proof.Machine

open Sys2Proof

/-- NEW num, blen (42_construction.md rules R70, R71): an all-zero vector, or an error that changes nothing. -/
def execNew (num : Word) (blen : Byte) (s : State) : Host.Outcome State Fault Refusal :=
  match newStatus s.cfg.depth num blen with
  | .ok => .next ((s.makeVector num blen []).respond .ok 0 [])
  | e => .next (s.raise e)

/-- NEWFROMARRAY [values] (42_construction.md rules R73 to R77): the values at the least sufficient width, or CAPACITY, which
changes nothing. -/
def execNewFromArray (values : List Word) (s : State) : Host.Outcome State Fault Refusal :=
  let width := inferWidth values
  match arrayStatus s.cfg.depth values with
  | .ok =>
    let store := loadElements width 0 values []
    .next ((s.makeVector (BitVec.ofNat 64 values.length) (BitVec.ofNat 8 width) store).respond .ok 0 [])
  | e => .next (s.raise e)

/-- BLEN (42_construction.md rule R78): data is `zext_64(BLEN)`. -/
def execBlen (s : State) : Host.Outcome State Fault Refusal :=
  s.answerRead (s.blen.setWidth 64) []

/-- NUM (42_construction.md rule R79): data is NUM. -/
def execNum (s : State) : Host.Outcome State Fault Refusal :=
  s.answerRead s.num []

end Sys2Proof.Machine
end

