-- ==== Sys2Proof/Machine/Extractor.lean ====
section
/-! DEFINITION. GET, the extractor (40_extractor.md). -/

namespace Sys2Proof.Machine

open Sys2Proof

/-- GET index (40_extractor.md rules R50, R53, R54): the element is the response's data; no state changes. -/
def execGet (index : Word) (s : State) : Host.Outcome State Fault Refusal :=
  match s.elementFault index .getOutOfContract with
  | some f => .fault f
  | none => .next (s.respond .ok (extractElement s.store s.blen.toNat index.toNat) [])

end Sys2Proof.Machine
end

