-- ==== Sys2Proof/Machine/Inserter.lean ====
section
/-! DEFINITION. SET, the inserter (41_inserter.md). -/

namespace Sys2Proof.Machine

open Sys2Proof

/-- SET index, value (41_inserter.md rules R60 to R64): the value, cut to BLEN bits, is ORed into the element. -/
def execSet (index value : Word) (s : State) : Host.Outcome State Fault Refusal :=
  match s.elementFault index .setOutOfContract with
  | some f => .fault f
  | none =>
    let written := { s with store := insertElement s.store s.blen.toNat index.toNat value }
    .next (written.respond .ok 0 [])

end Sys2Proof.Machine
end

