-- ==== Sys2Proof/Machine/Serializer.lean ====
section
/-! DEFINITION. ENCODE and DECODE, the serializer and deserializer (43_serializer.md). -/

namespace Sys2Proof.Machine

open Sys2Proof

/-- The payload-out of ENCODE: the whole state, every architectural word with its tail bits (43_serializer.md rules R90, R92). -/
def State.encoding (s : State) : List Byte :=
  wireBytes { words := Memory.words s.store s.nwords, num := s.num, blen := s.blen }

/-- ENCODE (43_serializer.md rules R90, R91): the encoded vector, its length in data; never an error. -/
def execEncode (s : State) : Host.Outcome State Fault Refusal :=
  s.answerRead (BitVec.ofNat 64 s.encoding.length) s.encoding

/-- DECODE [bytes] (43_serializer.md rules R93 to R98): the whole state is replaced, or is left unspecified by an error. -/
def execDecode (bytes : List Byte) (s : State) : Host.Outcome State Fault Refusal :=
  match parseVector s.cfg.depth bytes with
  | .ok (v, _) => .next ((s.makeVector v.num v.blen (Memory.ofWords v.words)).respond .ok 0 [])
  | .error e => .next (s.loseVector.raise e)

end Sys2Proof.Machine
end

