-- ==== Sys2Proof/Machine/Dispatch.lean ====
section
/-! DEFINITION. One arm per operation of the block, each one direct call of its meaning. -/

namespace Sys2Proof.Machine

open Sys2Proof

def exec (i : Instr) (s : State) : Host.Outcome State Fault Refusal :=
  match i with
  | .new num blen => Sys2Proof.Machine.execNew num blen s
  | .get index => Sys2Proof.Machine.execGet index s
  | .set index value => Sys2Proof.Machine.execSet index value s
  | .blen => Sys2Proof.Machine.execBlen s
  | .num => Sys2Proof.Machine.execNum s
  | .encode => Sys2Proof.Machine.execEncode s
  | .decode bytes => Sys2Proof.Machine.execDecode bytes s
  | .newFromArray values => Sys2Proof.Machine.execNewFromArray values s

end Sys2Proof.Machine
end

