-- ==== Sys2Proof/Machine/Command.lean ====
section
/-! DEFINITION. The command port: the block takes what the host issued one at a time, in order (20_memory.md rule R30). -/

namespace Sys2Proof.Machine

open Sys2Proof

/-- A request the block has taken: decoded and executed, answered BAD_OP when its opcode is reserved (30_encoding.md rule R39),
refused when its payload is one R73 says there is not (log entry 7). -/
def takeRequest (r : Request) (s : State) : Host.Outcome State Fault Refusal :=
  match decode r with
  | .ok i => exec i s
  | .error (.reservedOpcode _) => .next (s.raise .badOp)
  | .error .payloadTooLong => .refused .payloadTooLong

/-- The oldest item the host issued: a command, or a reset between commands (70_reset_and_hazards.md rule R121). With nothing
issued the block "is idle and holds its state" (60_exceptions.md rule R115). -/
def takeInput (s : State) : Host.Outcome State Fault Refusal :=
  match s.pending with
  | [] => .next s
  | .command r :: rest => takeRequest r { s with pending := rest }
  | .reset :: rest => .next (State.resetBlock { s with pending := rest })

end Sys2Proof.Machine
end

