-- ==== Sys2Proof/Machine/Step.lean ====
section
/-! DEFINITION. One step of the block: one whole command, or a reset, or nothing (00_scope.md rule R5). -/

namespace Sys2Proof.Machine

open Sys2Proof

/-- One atomic transition of the block. -/
def step (s : State) : Host.Outcome State Fault Refusal := takeInput s

/-- The state with a word of the opcode table as the next command the block takes, with no payload (log entry 8). -/
def State.withFetchWord (s : State) (nbits w : Nat) : State :=
  { s with pending := .command (tableRequest nbits w) :: s.pending }

end Sys2Proof.Machine
end

