-- ==== Sys2Proof/Safety.lean ====
section
/-! DEFINITION. What claims are stated in: the bit string the store is, the invariant of 10_state.md rule R14, when a command
is in contract, runs of several commands and of several steps, and the reachable states. -/

namespace Sys2Proof.Machine

open Sys2Proof

/-- Global bit `g` of a store is bit `g mod 64` of word `g div 64` (20_memory.md rule R21). -/
def Memory.bit (m : Memory) (g : Nat) : Bool := (Memory.read m (g / 64)).getLsbD (g % 64)

/-- The three pieces of state are a vector: INV-WIDTH and INV-FIT (10_state.md rule R14). In the canonical list, "exactly
`nwords` architectural words" says that no address at or above `nwords` is listed. -/
abbrev State.IsVector (s : State) : Prop :=
  s.blen.toNat ≤ 64 ∧ s.nwords ≤ s.cfg.depth ∧ ∀ p ∈ s.store, p.1 < s.nwords

/-- The invariant of every reachable state (10_state.md rules R14, R19): the bounds of R4 on DEPTH, the store in canonical
form, and, unless a DECODE has just failed, a vector. -/
structure State.Inv (s : State) : Prop where
  cfgOk : s.cfg.ok
  storeWf : Memory.wf s.store
  vector : s.unusable = false → s.IsVector

/-- The state holds a usable vector: the invariant, and no failed DECODE since it was last written. -/
abbrev State.Usable (s : State) : Prop := s.Inv ∧ s.unusable = false

/-- The preconditions the host must keep (70_reset_and_hazards.md rules R124, R127): `index < NUM` for GET and SET, and only
NEW, NEWFROMARRAY and DECODE while the state is unspecified. -/
def InContract : Instr → State → Prop
  | .new _ _, _ => True
  | .get index, s => s.unusable = false ∧ index.toNat < s.num.toNat
  | .set index _, s => s.unusable = false ∧ index.toNat < s.num.toNat
  | .blen, s => s.unusable = false
  | .num, s => s.unusable = false
  | .encode, s => s.unusable = false
  | .decode _, _ => True
  | .newFromArray _, _ => True

/-- Several commands, one after another, stopping at the first fault or refusal. -/
def execAll : List Instr → State → Host.Outcome State Fault Refusal
  | [], s => .next s
  | i :: is, s =>
    match exec i s with
    | .next t => execAll is t
    | .fault f => .fault f
    | .refused r => .refused r

/-- Several steps, stopping at the first fault or refusal. -/
def stepAll : Nat → State → Host.Outcome State Fault Refusal
  | 0, s => .next s
  | n + 1, s =>
    match step s with
    | .next t => stepAll n t
    | .fault f => .fault f
    | .refused r => .refused r

/-- The states a block of configuration `c` can reach: after reset, by a step, or by the host issuing something more
(60_exceptions.md rule R117: any command, or a reset, at any time between commands). -/
inductive Reachable (c : Config) : State → Prop where
  | reset : Reachable c (State.resetWith c)
  | step {s t : State} : Reachable c s → step s = .next t → Reachable c t
  | issue {s : State} (x : HostInput) : Reachable c s → Reachable c { s with pending := s.pending ++ [x] }

end Sys2Proof.Machine
end

