-- ==== Sys2Proof/Certificates/Slice0/Obligations.lean ====
section
/-! DEFINITION. The statements for the provers. Each docstring names the rules of spec/ it formalises, or the log entry a
clause of it rests on. -/

open Sys2Proof Sys2Proof.Machine

/-! ### Commands: encoding, decoding, the port -/

/-- Decoding the request that stands for an operation gives the operation back, for every well-formed operation and every
value of every operand (30_encoding.md rules R35, R37, R38). -/
def Obligations.DecodeOfEncodeIsIdentity : Prop :=
  ∀ i : Instr, i.wellFormed = true → decode (encode i) = .ok i

/-- R38: the operands of a command word `CW = B * 2^72 + A * 2^8 + op` are its fields whole, and the fields an operation does
not use are ignored. -/
def Obligations.OperandsAreTheFieldsOfTheCommandWord : Prop :=
  ∀ (a b : Word) (p : Payload),
    let request (op : Nat) : Request := { cw := BitVec.ofNat 136 (b.toNat * 2 ^ 72 + a.toNat * 2 ^ 8 + op), payload := p }
    decode (request 1) = .ok (.new a (BitVec.ofNat 8 b.toNat)) ∧
    decode (request 2) = .ok (.get a) ∧
    decode (request 3) = .ok (.set a b) ∧
    decode (request 4) = .ok .blen ∧
    decode (request 5) = .ok .num ∧
    decode (request 6) = .ok .encode ∧
    decode (request 7) = decode { cw := 7, payload := p } ∧
    decode (request 8) = decode { cw := 8, payload := p }

/-- R41: the payload-in of DECODE and NEWFROMARRAY is their operand, no payload is the empty sequence, and a payload sent with
any other opcode is ignored. -/
def Obligations.PayloadIsTheOperandOfDecodeAndNewFromArray : Prop :=
  ∀ cw : CommandWord,
    (opField cw = 7 → (∀ bytes, decode ⟨cw, .bytes bytes⟩ = .ok (.decode bytes)) ∧ decode ⟨cw, .none⟩ = .ok (.decode [])) ∧
    (opField cw = 8 → (∀ values, values.length < 2 ^ 64 → decode ⟨cw, .words values⟩ = .ok (.newFromArray values)) ∧
      decode ⟨cw, .none⟩ = .ok (.newFromArray [])) ∧
    (opField cw ≠ 7 → opField cw ≠ 8 → ∀ p, decode ⟨cw, p⟩ = decode ⟨cw, .none⟩)

/-- R39: a command with opcode 0x00 or 0x09 to 0xFF changes no state and is answered BAD_OP, data 0, no payload, whatever its
other fields and its payload. -/
def Obligations.ReservedOpcodesAnswerBadOp : Prop :=
  ∀ (s : State) (r : Request) (rest : List HostInput), s.pending = .command r :: rest →
    (opField r.cw).toNat = 0 ∨ 9 ≤ (opField r.cw).toNat →
    step s = .next { s with
      pending := rest, responses := s.responses ++ [{ status := .badOp, data := 0, payload := [] }] }

/-- The worked encodings of 30_encoding.md section 8 decode to the commands they stand for. -/
def Obligations.WorkedEncodingsDecode : Prop :=
  decode ⟨0x0000000000000003000000000000000501, .none⟩ = .ok (.new 5 3) ∧
  decode ⟨0x0000000000000000000000000000000402, .none⟩ = .ok (.get 4) ∧
  decode ⟨0x0000000000000007000000000000000103, .none⟩ = .ok (.set 1 7) ∧
  decode ⟨0xFFFFFFFFFFFFFFFF000000000000000003, .none⟩ = .ok (.set 0 0xFFFFFFFFFFFFFFFF) ∧
  decode ⟨0x0000000000000041000000000000000501, .none⟩ = .ok (.new 5 65) ∧
  decode ⟨0x0000000000000002000000000000000109, .none⟩ = .error (.reservedOpcode 9)

/-- A step runs the decoded command: the oldest request leaves the queue and the operation it stands for is executed. -/
def Obligations.StepRunsTheDecodedCommand : Prop :=
  ∀ (s : State) (r : Request) (rest : List HostInput) (i : Instr),
    s.pending = .command r :: rest → decode r = .ok i → step s = exec i { s with pending := rest }

/-- A block with nothing issued holds its state (60_exceptions.md rule R115), and a reset between commands gives NUM = 0,
BLEN = 0, an empty store and no response (R120, R121), in any state, the unusable one included; DEPTH, the rest of the queue
and the responses already sent stay (log entry 10). -/
def Obligations.StepWithoutACommand : Prop :=
  ∀ s : State,
    (s.pending = [] → step s = .next s) ∧
    ∀ rest, s.pending = .reset :: rest →
      step s = .next { s with pending := rest, num := 0, blen := 0, store := [], unusable := false }

/-- Every request taken is answered by exactly one response, after every earlier one; the rest of the queue waits; DEPTH never
changes. Only a successful ENCODE has a payload-out, and only an OK response to GET, BLEN, NUM or ENCODE has data other than 0
(30_encoding.md rule R36, 20_memory.md rule R30). -/
def Obligations.EveryRequestGetsOneResponseInOrder : Prop :=
  ∀ (s t : State) (r : Request) (rest : List HostInput), s.pending = .command r :: rest → step s = .next t →
    t.pending = rest ∧ t.cfg = s.cfg ∧
    ∃ resp, t.responses = s.responses ++ [resp] ∧
      (resp.payload ≠ [] → opField r.cw = 6 ∧ resp.status = .ok) ∧
      (resp.data ≠ 0 → resp.status = .ok ∧ (opField r.cw = 2 ∨ opField r.cw = 4 ∨ opField r.cw = 5 ∨ opField r.cw = 6))

/-- A queue of well-formed commands, each as its encoded request, is run by the steps of the machine exactly as its operations
are executed one after another, whatever stops them (20_memory.md rule R30). -/
def Obligations.QueuedCommandsRunInOrder : Prop :=
  ∀ (s : State) (l : List Instr), (∀ i ∈ l, i.wellFormed = true) →
    stepAll l.length { s with pending := l.map fun i => .command (encode i) } = execAll l { s with pending := [] }

/-- No command is refused for the state it meets or for lack of rights (60_exceptions.md rule R112): the only refusal is of a
NEWFROMARRAY payload longer than R73 allows (log entry 7). -/
def Obligations.NoLegalRequestIsRefused : Prop :=
  ∀ (s : State) (e : Refusal), step s = .refused e →
    ∃ r rest values, s.pending = .command r :: rest ∧ opField r.cw = 8 ∧ r.payload = .words values ∧ 2 ^ 64 ≤ values.length

/-- A command in contract completes in every state, and one out of contract faults (log entries 2, 3, 5; 40_extractor.md rule
R53, 41_inserter.md rule R64, 10_state.md rule R19). -/
def Obligations.CommandsCompleteExactlyInContract : Prop :=
  ∀ (i : Instr) (s : State),
    (InContract i s → ∃ t, exec i s = .next t) ∧ (¬ InContract i s → ∃ f, exec i s = .fault f)

/-- What stops a GET or SET out of contract, at every width, 0 included, and what stops a command that needs the state while it
is unspecified (the model's treatment, log entries 2, 3 and 5, that U1, U2 and U3 of 93_implementation_defined.md ask for). -/
def Obligations.OutOfContractCommandsFault : Prop :=
  ∀ (s : State) (index value : Word),
    (s.unusable = false → s.num.toNat ≤ index.toNat →
      exec (.get index) s = .fault .getOutOfContract ∧ exec (.set index value) s = .fault .setOutOfContract) ∧
    (s.unusable = true →
      exec (.get index) s = .fault .unusableState ∧ exec (.set index value) s = .fault .unusableState ∧
      exec .blen s = .fault .unusableState ∧ exec .num s = .fault .unusableState ∧ exec .encode s = .fault .unusableState)

/-! ### Reset and the invariant -/

/-- R16: the reset state, for every DEPTH: the state NEW 0, 0 produces; every GET and SET out of contract; BLEN and NUM answer
0; ENCODE the 20-byte encoding of the empty vector (V-ENC-1). -/
def Obligations.ResetStateIsNewZeroZero : Prop :=
  ∀ c : Config,
    let s := State.resetWith c
    s.num = 0 ∧ s.blen = 0 ∧ s.nwords = 0 ∧ s.store = [] ∧ s.unusable = false ∧ s.pending = [] ∧ s.responses = [] ∧
    exec (.new 0 0) s = .next { s with responses := [{ status := .ok, data := 0, payload := [] }] } ∧
    (∀ index value, ¬ InContract (.get index) s ∧ ¬ InContract (.set index value) s) ∧
    exec .blen s = .next { s with responses := [{ status := .ok, data := 0, payload := [] }] } ∧
    exec .num s = .next { s with responses := [{ status := .ok, data := 0, payload := [] }] } ∧
    exec .encode s = .next { s with responses := [{ status := .ok, data := 20, payload :=
      [0x01, 0, 0, 0, 0, 0, 0, 0, 0, 0x02, 0, 0, 0, 0, 0, 0, 0, 0, 0x03, 0] }] }

/-- The invariant of R14 holds after reset, for every DEPTH that R4 allows, the DEPTH of `State.reset` (log entry 1) among
them. -/
def Obligations.InvariantHoldsAfterReset : Prop :=
  (∀ c : Config, c.ok → (State.resetWith c).Inv) ∧ State.reset.Inv

/-- Every step keeps the invariant: the canonical form of the store, and, unless a DECODE has just failed, INV-WIDTH and
INV-FIT (10_state.md rule R14). That no word is listed at or above nwords is how log entry 9 holds the store. -/
def Obligations.InvariantKeptByEveryStep : Prop :=
  ∀ s t : State, s.Inv → step s = .next t → t.Inv

/-- R14: in every reachable state, unless a DECODE has just failed, BLEN ≤ 64 and the `ceil_div(NUM*BLEN, 64)` words fit DEPTH,
and no word is listed beyond them. That a word beyond them reads 0 is the model's choice (log entry 9): the hardware's
physical words there are UNSPECIFIED (R17). -/
def Obligations.ReachableStatesAreVectors : Prop :=
  ∀ (c : Config) (s : State), c.ok → Reachable c s → s.unusable = false →
    s.blen.toNat ≤ 64 ∧ (s.num.toNat * s.blen.toNat + 63) / 64 ≤ c.depth ∧
      ∀ a, (s.num.toNat * s.blen.toNat + 63) / 64 ≤ a → Memory.read s.store a = 0

/-- NUM and BLEN are changed by no step but one that takes NEW, NEWFROMARRAY, DECODE or a reset (10_state.md rules R11,
R12). -/
def Obligations.OnlyRewritersChangeNumAndBlen : Prop :=
  ∀ s t : State, step s = .next t → t.num ≠ s.num ∨ t.blen ≠ s.blen →
    (∃ rest, s.pending = .reset :: rest) ∨
    ∃ r rest, s.pending = .command r :: rest ∧ (opField r.cw = 1 ∨ opField r.cw = 7 ∨ opField r.cw = 8)

/-! ### GET -/

/-- R55: an in-contract GET answers OK with the number whose bit j, below BLEN, is global bit `index*BLEN + j` of the store and
whose bits from BLEN on are 0; nothing else of the state changes. -/
def Obligations.GetReturnsTheElementsBits : Prop :=
  ∀ (s : State) (index : Word), s.Usable → index.toNat < s.num.toNat →
    ∃ x : Word,
      exec (.get index) s =
        .next { s with responses := s.responses ++ [{ status := .ok, data := x, payload := [] }] } ∧
      (∀ j, j < s.blen.toNat → x.getLsbD j = (Memory.read s.store ((index.toNat * s.blen.toNat + j) / 64)).getLsbD
        ((index.toNat * s.blen.toNat + j) % 64)) ∧
      ∀ j, s.blen.toNat ≤ j → x.getLsbD j = false

/-- The corner cases of GET (40_extractor.md rule R50): data 0 at BLEN = 0, the whole word `W[index]` at BLEN = 64, and the top
BLEN bits of `W[block]` when `offset + BLEN = 64` exactly. -/
def Obligations.GetCornerCases : Prop :=
  ∀ (s : State) (index : Word), s.Usable → index.toNat < s.num.toNat →
    ∃ x : Word,
      exec (.get index) s =
        .next { s with responses := s.responses ++ [{ status := .ok, data := x, payload := [] }] } ∧
      (s.blen.toNat = 0 → x = 0) ∧
      (s.blen.toNat = 64 → x = Memory.read s.store index.toNat) ∧
      (s.blen.toNat ≠ 0 → index.toNat * s.blen.toNat % 64 + s.blen.toNat = 64 →
        x = Memory.read s.store (index.toNat * s.blen.toNat / 64) >>> (index.toNat * s.blen.toNat % 64))

/-- R56: GET is one right shift of the 128-bit concatenation `{hi, W[block]}`, masked; `hi` is `W[block+1]` on a straddle and
any value otherwise. -/
def Obligations.GetIsOne128BitShift : Prop :=
  ∀ (s : State) (index hi : Word), s.Usable → index.toNat < s.num.toNat →
    let pos := index.toNat * s.blen.toNat
    (64 < pos % 64 + s.blen.toNat → hi = Memory.read s.store (pos / 64 + 1)) →
    exec (.get index) s =
      .next { s with responses := s.responses ++ [{
        status := .ok
        data := BitVec.setWidth 64 ((hi ++ Memory.read s.store (pos / 64) : BitVec 128) >>> (pos % 64)) &&&
          BitVec.ofNat 64 (2 ^ s.blen.toNat - 1)
        payload := [] }] }

/-- The commands that only read (GET, BLEN, NUM, ENCODE) leave every piece of state as it was but for their one response
(20_memory.md rule R33). -/
def Obligations.ReadingCommandsChangeNothing : Prop :=
  ∀ (i : Instr) (s t : State), (∃ index, i = .get index) ∨ i = .blen ∨ i = .num ∨ i = .encode → exec i s = .next t →
    ∃ resp, resp.status = .ok ∧ t = { s with responses := s.responses ++ [resp] }

/-! ### The position decoder -/

/-- R25: for an in-contract index the position decoder's `block`, and on a straddle `block + 1`, lie below `nwords`; and no
in-contract GET or SET touches a word outside the architectural store: GET answers the same whatever those words hold, SET
leaves every one of them as it was. At BLEN = 0 no position is computed (20_memory.md rule R23). -/
def Obligations.InContractElementLiesInTheStore : Prop :=
  ∀ (s : State) (index : Word), s.Usable → index.toNat < s.num.toNat →
    (s.blen.toNat ≠ 0 →
      blockOf s.blen.toNat index.toNat < s.nwords ∧
      (straddles s.blen.toNat index.toNat = true → blockOf s.blen.toNat index.toNat + 1 < s.nwords)) ∧
    (∀ m : Memory, (∀ a, a < s.nwords → Memory.read m a = Memory.read s.store a) →
      ∃ x, exec (.get index) s = .next (s.respond .ok x []) ∧
        exec (.get index) { s with store := m } = .next (State.respond { s with store := m } .ok x [])) ∧
    ∀ value : Word, ∃ m : Memory,
      exec (.set index value) s = .next (State.respond { s with store := m } .ok 0 []) ∧
      ∀ a, s.nwords ≤ a → Memory.read m a = Memory.read s.store a

/-- R51: the right shift amount is 0 to 63, the left shift amount of a straddle 1 to 63, and an element of 64 bits does not
straddle: no shift by 64 or more ever occurs, and the masked branch masks 1 to 63 bits. -/
def Obligations.ShiftAmountsStayBelow64 : Prop :=
  ∀ blen index : Nat, 1 ≤ blen → blen ≤ 64 →
    offsetOf blen index < 64 ∧
    (straddles blen index = true → 1 ≤ 64 - offsetOf blen index ∧ 64 - offsetOf blen index ≤ 63) ∧
    (blen = 64 → straddles blen index = false ∧ offsetOf blen index = 0) ∧
    (blen < 64 → 1 ≤ blen ∧ (2 : Nat) ^ blen < 2 ^ 64)

/-! ### SET -/

/-- R63: an in-contract SET answers OK, data 0, and changes only the element's own global bits, each only from 0 to 1, by the
value's low BLEN bits; every other bit of the store, NUM, BLEN and the rest of the state are unchanged. -/
def Obligations.SetOrsTheElementsBits : Prop :=
  ∀ (s : State) (index value : Word), s.Usable → index.toNat < s.num.toNat →
    ∃ m : Memory,
      exec (.set index value) s = .next { s with
        store := m, responses := s.responses ++ [{ status := .ok, data := 0, payload := [] }] } ∧
      ∀ g, m.bit g = (s.store.bit g ||
        (decide (index.toNat * s.blen.toNat ≤ g ∧ g < index.toNat * s.blen.toNat + s.blen.toNat) &&
          value.getLsbD (g - index.toNat * s.blen.toNat)))

/-- Where SET stores (41_inserter.md rule R60): `W[block]`, and `W[block+1]` on a straddle, each ORed with its part of the
masked value; every other word reads as before, and at BLEN = 0 nothing is stored. -/
def Obligations.SetStoresOnlyToItsWords : Prop :=
  ∀ (s : State) (index value : Word), s.Usable → index.toNat < s.num.toNat →
    let blen := s.blen.toNat
    let v := if blen = 64 then value else value &&& BitVec.ofNat 64 (2 ^ blen - 1)
    ∃ m : Memory,
      exec (.set index value) s = .next { s with
        store := m, responses := s.responses ++ [{ status := .ok, data := 0, payload := [] }] } ∧
      (blen = 0 → m = s.store) ∧
      (blen ≠ 0 →
        Memory.read m (blockOf blen index.toNat) =
          Memory.read s.store (blockOf blen index.toNat) ||| v <<< offsetOf blen index.toNat ∧
        (straddles blen index.toNat = true → Memory.read m (blockOf blen index.toNat + 1) =
          Memory.read s.store (blockOf blen index.toNat + 1) ||| v >>> (64 - offsetOf blen index.toNat)) ∧
        ∀ a, a ≠ blockOf blen index.toNat → (straddles blen index.toNat = true → a ≠ blockOf blen index.toNat + 1) →
          Memory.read m a = Memory.read s.store a)

/-- R62: after `SET i, value` the element holds `old OR (value mod 2^BLEN)`, `old` being what `GET i` returned before; GET of
every other element gives what it gave. -/
def Obligations.GetAfterSetReturnsTheOr : Prop :=
  ∀ (s : State) (i value : Word), s.Usable → i.toNat < s.num.toNat →
    ∃ (t : State) (old : Word), exec (.set i value) s = .next t ∧
      exec (.get i) s = .next (s.respond .ok old []) ∧
      exec (.get i) t = .next (t.respond .ok (old ||| BitVec.ofNat 64 (value.toNat % 2 ^ s.blen.toNat)) []) ∧
      ∀ j : Word, j ≠ i → j.toNat < s.num.toNat →
        ∃ x, exec (.get j) s = .next (s.respond .ok x []) ∧ exec (.get j) t = .next (t.respond .ok x [])

/-- R68: SET is one merge of the 128-bit number `m = v * 2^offset`: its low half into `W[block]`, and its high half, when it is
not zero, into `W[block+1]`. -/
def Obligations.SetIsOne128BitMerge : Prop :=
  ∀ (s : State) (index value : Word), s.Usable → index.toNat < s.num.toNat →
    let pos := index.toNat * s.blen.toNat
    let merged : BitVec 128 := BitVec.ofNat 128 (value.toNat % 2 ^ s.blen.toNat * 2 ^ (pos % 64))
    ∃ m : Memory,
      exec (.set index value) s = .next { s with
        store := m, responses := s.responses ++ [{ status := .ok, data := 0, payload := [] }] } ∧
      ∀ a, Memory.read m a =
        if a = pos / 64 then Memory.read s.store a ||| merged.extractLsb' 0 64
        else if a = pos / 64 + 1 ∧ merged.extractLsb' 64 64 ≠ 0 then
          Memory.read s.store a ||| merged.extractLsb' 64 64
        else Memory.read s.store a

/-- R66: in-contract SETs commute, to different indices and to the same one: the two orders end in the same state. Of two to
the same index the result is the OR of both values and what was there. -/
def Obligations.SetsCommute : Prop :=
  ∀ (s : State) (i j a b : Word), s.Usable → i.toNat < s.num.toNat → j.toNat < s.num.toNat →
    ∃ t, execAll [.set i a, .set j b] s = .next t ∧ execAll [.set j b, .set i a] s = .next t ∧
      (i = j → ∃ old, exec (.get i) s = .next (s.respond .ok old []) ∧
        exec (.get i) t = .next (t.respond .ok (old ||| BitVec.ofNat 64 (a.toNat % 2 ^ s.blen.toNat) |||
          BitVec.ofNat 64 (b.toNat % 2 ^ s.blen.toNat)) []))

/-- Issuing the same SET twice in a row leaves the same store as issuing it once (20_memory.md rule R33). -/
def Obligations.SetTwiceStoresAsOnce : Prop :=
  ∀ (s : State) (i a : Word), s.Usable → i.toNat < s.num.toNat →
    ∃ t u, exec (.set i a) s = .next t ∧ execAll [.set i a, .set i a] s = .next u ∧ u.store = t.store

/-- R67: between two operations that rewrite the store, its 1 bits only grow, word by word, and so does what GET returns, over
any sequence of the other commands that completes. -/
def Obligations.StoreOnlyGainsOnes : Prop :=
  ∀ (s t : State) (l : List Instr), s.Usable →
    (∀ i ∈ l, (∃ index value, i = .set index value) ∨ (∃ index, i = .get index) ∨ i = .blen ∨ i = .num ∨ i = .encode) →
    execAll l s = .next t →
    (∀ a, Memory.read s.store a &&& Memory.read t.store a = Memory.read s.store a) ∧
    ∀ index : Word, index.toNat < s.num.toNat →
      ∃ x y, exec (.get index) s = .next (s.respond .ok x []) ∧ exec (.get index) t = .next (t.respond .ok y []) ∧
        x &&& y = x

/-! ### NEW, NEWFROMARRAY, BLEN, NUM -/

/-- R70, R71, R72: NEW tests the width, then the exact word count against DEPTH, and only then writes NUM, BLEN and an all-zero
store; an error changes nothing but the response. -/
def Obligations.NewMakesAZeroVectorOrChangesNothing : Prop :=
  ∀ (s : State) (num : Word) (blen : Byte),
    (64 < blen.toNat → exec (.new num blen) s = .next { s with
      responses := s.responses ++ [{ status := .invalidWidth, data := 0, payload := [] }] }) ∧
    (blen.toNat ≤ 64 → s.cfg.depth < (num.toNat * blen.toNat + 63) / 64 → exec (.new num blen) s = .next { s with
      responses := s.responses ++ [{ status := .capacity, data := 0, payload := [] }] }) ∧
    (blen.toNat ≤ 64 → (num.toNat * blen.toNat + 63) / 64 ≤ s.cfg.depth → exec (.new num blen) s = .next { s with
      num := num, blen := blen, store := [], unusable := false
      responses := s.responses ++ [{ status := .ok, data := 0, payload := [] }] })

/-- R80: after an OK NEW the registers hold its operands, every architectural word is 0, and every element reads 0. -/
def Obligations.GetAfterNewReadsZero : Prop :=
  ∀ (s t : State) (num : Word) (blen : Byte), exec (.new num blen) s = .next t →
    t.responses = s.responses ++ [{ status := .ok, data := 0, payload := [] }] →
    t.num = num ∧ t.blen = blen ∧ (∀ a, a < t.nwords → Memory.read t.store a = 0) ∧
    ∀ i : Word, i.toNat < num.toNat → exec (.get i) t = .next (t.respond .ok 0 [])

/-- R57, the read-back law: after `NEW num, blen` and at most one SET per index, in any order, GET returns `v mod 2^blen` for
every index that was set and 0 for every index that was not. -/
def Obligations.ReadBackLaw : Prop :=
  ∀ (s : State) (num : Word) (blen : Byte) (l : List (Word × Word)),
    s.cfg.ok → blen.toNat ≤ 64 → (num.toNat * blen.toNat + 63) / 64 ≤ s.cfg.depth →
    (l.map Prod.fst).Nodup → (∀ p ∈ l, p.1.toNat < num.toNat) →
    ∃ t, execAll (.new num blen :: l.map fun p => .set p.1 p.2) s = .next t ∧
      (∀ p ∈ l, exec (.get p.1) t = .next (t.respond .ok (BitVec.ofNat 64 (p.2.toNat % 2 ^ blen.toNat)) [])) ∧
      ∀ i : Word, i.toNat < num.toNat → i ∉ l.map Prod.fst → exec (.get i) t = .next (t.respond .ok 0 [])

/-- R74: `dim` is 0 for no values and one more than the greatest value otherwise, with no wrap at 2^64, and does not depend on
their order. -/
def Obligations.DimIsOneMoreThanTheGreatestValue : Prop :=
  inferDim [] = 0 ∧
  (∀ values : List Word, values ≠ [] → ∃ v ∈ values, inferDim values = v.toNat + 1 ∧ ∀ u ∈ values, u.toNat ≤ v.toNat) ∧
  ∀ values values' : List Word, values.Perm values' → inferDim values = inferDim values'

/-- R75: the inferred width is the smallest b with `(dim - 1) >> b == 0`, 0 if `dim ≤ 1`; it is at most 64, it is
`ceil(log2(max + 1))`, the bit length of the greatest value, and the bit length of the OR of all values. -/
def Obligations.InferredWidthIsTheBitLength : Prop :=
  ∀ values : List Word,
    let w := inferWidth values
    w ≤ 64 ∧ (inferDim values ≤ 1 → w = 0) ∧
    (inferDim values - 1) / 2 ^ w = 0 ∧ (∀ b, (inferDim values - 1) / 2 ^ b = 0 → w ≤ b) ∧
    w = Nat.clog 2 (inferDim values) ∧
    w = Nat.size (inferDim values - 1) ∧
    w = Nat.size (values.foldl (· ||| ·) 0).toNat

/-- R81: after an OK NEWFROMARRAY the registers hold the length and the bit length of the greatest value, and every element
reads as its value. It answers OK for every payload that fits DEPTH. -/
def Obligations.NewFromArrayHoldsItsValues : Prop :=
  ∀ (s : State) (values : List Word) (w : Nat), s.cfg.ok → values.length < 2 ^ 64 →
    (∀ v ∈ values, v.toNat < 2 ^ w) → (w = 0 ∨ ∃ v ∈ values, 2 ^ (w - 1) ≤ v.toNat) →
    (values.length * w + 63) / 64 ≤ s.cfg.depth →
    ∃ m : Memory,
      let t : State := { s with
        num := BitVec.ofNat 64 values.length, blen := BitVec.ofNat 8 w, store := m, unusable := false
        responses := s.responses ++ [{ status := .ok, data := 0, payload := [] }] }
      exec (.newFromArray values) s = .next t ∧ t.num.toNat = values.length ∧ t.blen.toNat = w ∧
      ∀ (i : Nat) (h : i < values.length), exec (.get (BitVec.ofNat 64 i)) t = .next (t.respond .ok values[i] [])

/-- A NEWFROMARRAY that needs more than DEPTH words answers CAPACITY and changes nothing else (42_construction.md rule R77). -/
def Obligations.NewFromArrayTooLargeChangesNothing : Prop :=
  ∀ (s : State) (values : List Word), s.cfg.depth < (values.length * inferWidth values + 63) / 64 →
    exec (.newFromArray values) s = .next { s with
      responses := s.responses ++ [{ status := .capacity, data := 0, payload := [] }] }

/-- NEWFROMARRAY leaves NUM, BLEN and the store that NEW at the inferred width and then one SET per value, in index order, leave
(42_construction.md rules R73, R76). -/
def Obligations.NewFromArrayIsNewThenSets : Prop :=
  ∀ (s : State) (values : List Word), s.cfg.ok → values.length < 2 ^ 64 →
    (values.length * inferWidth values + 63) / 64 ≤ s.cfg.depth →
    ∃ t u, exec (.newFromArray values) s = .next t ∧
      execAll (.new (BitVec.ofNat 64 values.length) (BitVec.ofNat 8 (inferWidth values)) ::
        values.zipIdx.map fun p => .set (BitVec.ofNat 64 p.2) p.1) s = .next u ∧
      t.num = u.num ∧ t.blen = u.blen ∧ t.store = u.store ∧ t.unusable = u.unusable

/-- R78, R79: BLEN answers the width, zero-extended, at most 64; NUM answers the count; neither writes anything. -/
def Obligations.AccessorsReadTheRegisters : Prop :=
  ∀ s : State, s.Usable →
    exec .blen s = .next { s with
      responses := s.responses ++ [{ status := .ok, data := BitVec.ofNat 64 s.blen.toNat, payload := [] }] } ∧
    (BitVec.ofNat 64 s.blen.toNat).toNat ≤ 64 ∧
    exec .num s = .next { s with responses := s.responses ++ [{ status := .ok, data := s.num, payload := [] }] }

/-! ### ENCODE and DECODE -/

/-- R87, R88, R89: ENCODE answers OK with `8*nwords + 20` bytes: the tag 0x01, the count, every architectural word, the tag
0x02, NUM, the tag 0x03, BLEN, each number least-significant byte first, at the offsets of R89. -/
def Obligations.EncodeLayout : Prop :=
  ∀ s : State, s.Usable →
    let n := (s.num.toNat * s.blen.toNat + 63) / 64
    ∃ out : List Byte,
      exec .encode s = .next { s with
        responses := s.responses ++ [{ status := .ok, data := BitVec.ofNat 64 (8 * n + 20), payload := out }] } ∧
      out.length = 8 * n + 20 ∧
      out[0]? = some 0x01 ∧
      (∀ k < 8, out[1 + k]? = some (BitVec.ofNat 8 (n / 2 ^ (8 * k)))) ∧
      (∀ a < n, ∀ k < 8, out[9 + 8 * a + k]? = some (BitVec.ofNat 8 ((Memory.read s.store a).toNat / 2 ^ (8 * k)))) ∧
      out[9 + 8 * n]? = some 0x02 ∧
      (∀ k < 8, out[10 + 8 * n + k]? = some (BitVec.ofNat 8 (s.num.toNat / 2 ^ (8 * k)))) ∧
      out[18 + 8 * n]? = some 0x03 ∧
      out[19 + 8 * n]? = some s.blen

/-- R92: two different states give two different payloads: NUM, BLEN and every architectural word, tail bits included, can be
read from the payload-out. -/
def Obligations.EncodeIsInjective : Prop :=
  ∀ (s s' : State) (d d' : Word) (out : List Byte), s.Usable → s'.Usable →
    exec .encode s = .next (s.respond .ok d out) → exec .encode s' = .next (s'.respond .ok d' out) →
    s.num = s'.num ∧ s.blen = s'.blen ∧ s.store = s'.store

/-- R91: no step answers ENCODING_ERROR. -/
def Obligations.NothingAnswersEncodingError : Prop :=
  ∀ (s t : State) (resp : Response), step s = .next t → t.responses = s.responses ++ [resp] → resp.status ≠ .encodingError

/-- R99, the round trip, with R96: DECODE of what ENCODE emits, whatever bytes follow, answers OK and leaves NUM, BLEN and every
architectural word as they were in the encoding block, in any block whose DEPTH is at least nwords. -/
def Obligations.DecodeOfEncodeRestoresTheVector : Prop :=
  ∀ s s' : State, s.Usable → s'.cfg.ok → s.nwords ≤ s'.cfg.depth →
    ∃ d out, exec .encode s = .next (s.respond .ok d out) ∧
      ∀ rest : List Byte, exec (.decode (out ++ rest)) s' = .next { s' with
        num := s.num, blen := s.blen, store := s.store, unusable := false
        responses := s'.responses ++ [{ status := .ok, data := 0, payload := [] }] }

/-- R100: what DECODE accepts is, up to ignored bytes at its end, what ENCODE emits right after; and what it loads is a vector
(the consequence R94 draws). -/
def Obligations.AcceptedPayloadIsTheCanonicalEncoding : Prop :=
  ∀ (s t : State) (bytes : List Byte), s.cfg.ok → exec (.decode bytes) s = .next t →
    t.responses = s.responses ++ [{ status := .ok, data := 0, payload := [] }] →
    t.IsVector ∧ ∃ d out rest, exec .encode t = .next (t.respond .ok d out) ∧ bytes = out ++ rest

/-- R94: three fields that parse and fit DEPTH are a vector or DECODE_ERROR: `blen > 64`, or a word count other than
`ceil_div(num*blen, 64)`, fails and marks the state (R95); anything else is loaded as it is, tail bits included (R93), whatever bytes follow (R96). That
the store reads 0 beyond the loaded words is the model's choice (log entry 9). -/
def Obligations.DecodeChecksWidthAndCount : Prop :=
  ∀ (s : State) (words : List Word) (num : Word) (blen : Byte) (rest : List Byte), s.cfg.ok → words.length ≤ s.cfg.depth →
    let bytes := [0x01] ++ le64 (BitVec.ofNat 64 words.length) ++ words.flatMap le64 ++ [0x02] ++ le64 num ++ [0x03, blen] ++ rest
    (64 < blen.toNat ∨ words.length ≠ (num.toNat * blen.toNat + 63) / 64 →
      ∃ t, exec (.decode bytes) s = .next t ∧ t.unusable = true ∧
        t.responses = s.responses ++ [{ status := .decodeError, data := 0, payload := [] }]) ∧
    (blen.toNat ≤ 64 → words.length = (num.toNat * blen.toNat + 63) / 64 →
      ∃ m : Memory,
        exec (.decode bytes) s = .next { s with
          num := num, blen := blen, store := m, unusable := false
          responses := s.responses ++ [{ status := .ok, data := 0, payload := [] }] } ∧
        Memory.wf m ∧ ∀ a, Memory.read m a = words.getD a 0)

/-- DECODE's checks in stream order (43_serializer.md rule R93, 60_exceptions.md rule R108): what fails first decides, whatever
follows. -/
def Obligations.DecodeChecksInStreamOrder : Prop :=
  ∀ (s : State), s.cfg.ok →
    let fails (bytes : List Byte) (e : Status) : Prop :=
      ∃ t, exec (.decode bytes) s = .next t ∧ t.unusable = true ∧
        t.responses = s.responses ++ [{ status := e, data := 0, payload := [] }]
    fails [] .decodeError ∧
    (∀ b rest, b ≠ 0x01 → fails (b :: rest) .decodeError) ∧
    (∀ rest, rest.length < 8 → fails (0x01 :: rest) .decodeError) ∧
    ∀ cnt : Word,
      (s.cfg.depth < cnt.toNat → ∀ rest, fails (0x01 :: le64 cnt ++ rest) .capacity) ∧
      (cnt.toNat ≤ s.cfg.depth → ∀ rest, rest.length < 8 * cnt.toNat → fails (0x01 :: le64 cnt ++ rest) .decodeError) ∧
      ∀ words : List Word, words.length = cnt.toNat → cnt.toNat ≤ s.cfg.depth →
        let head := 0x01 :: le64 cnt ++ words.flatMap le64
        fails head .decodeError ∧
        (∀ b rest, b ≠ 0x02 → fails (head ++ b :: rest) .decodeError) ∧
        (∀ rest, rest.length < 8 → fails (head ++ 0x02 :: rest) .decodeError) ∧
        ∀ num : Word,
          fails (head ++ 0x02 :: le64 num) .decodeError ∧
          (∀ b rest, b ≠ 0x03 → fails (head ++ 0x02 :: le64 num ++ b :: rest) .decodeError) ∧
          fails (head ++ 0x02 :: le64 num ++ [0x03]) .decodeError

/-- DECODE always completes: with OK and a usable vector, or with DECODE_ERROR or CAPACITY, data 0, no payload, and the state
marked unspecified; the configuration and the queue stay (43_serializer.md rule R95, 60_exceptions.md rule R106). -/
def Obligations.DecodeAnswersAndMarksTheState : Prop :=
  ∀ (s : State) (bytes : List Byte),
    ∃ t e, exec (.decode bytes) s = .next t ∧ t.responses = s.responses ++ [{ status := e, data := 0, payload := [] }] ∧
      (e = .ok ∨ e = .decodeError ∨ e = .capacity) ∧ (t.unusable = true ↔ e ≠ .ok) ∧
      t.cfg = s.cfg ∧ t.pending = s.pending

/-- R98: whether a DECODE fails, with which status, and what an OK one loads depend on the payload and on DEPTH alone, never on
the old state. -/
def Obligations.DecodeDependsOnPayloadAndDepthAlone : Prop :=
  ∀ (s s' : State) (bytes : List Byte), s.cfg.depth = s'.cfg.depth →
    ∃ t t' resp, exec (.decode bytes) s = .next t ∧ exec (.decode bytes) s' = .next t' ∧
      t.responses = s.responses ++ [resp] ∧ t'.responses = s'.responses ++ [resp] ∧
      (resp.status = .ok → t.num = t'.num ∧ t.blen = t'.blen ∧ t.store = t'.store)

/-! ### Errors and the unspecified state -/

/-- R105: a command that fails sends one response with data 0 and an empty payload-out, and, unless it is a DECODE, leaves
every piece of state as it was. -/
def Obligations.FailedCommandsChangeNothing : Prop :=
  ∀ (i : Instr) (s t : State) (resp : Response), exec i s = .next t → t.responses = s.responses ++ [resp] →
    resp.status ≠ .ok →
    resp.data = 0 ∧ resp.payload = [] ∧
      ((∀ bytes, i ≠ .decode bytes) → t = { s with responses := s.responses ++ [resp] })

/-- While the state is unspecified, only NEW, NEWFROMARRAY and DECODE complete, and the mark is cleared exactly by one that
answers OK (10_state.md rule R19, U3). -/
def Obligations.UnspecifiedUntilRewritten : Prop :=
  ∀ (i : Instr) (s t : State), s.unusable = true → exec i s = .next t →
    ((∃ num blen, i = .new num blen) ∨ (∃ bytes, i = .decode bytes) ∨ ∃ values, i = .newFromArray values) ∧
    ∃ resp, t.responses = s.responses ++ [resp] ∧ (t.unusable = false ↔ resp.status = .ok)

/-- Nothing the block answers to any sequence of commands, and no usable state it comes to, depends on what a failed DECODE left
in NUM, BLEN and the store: two blocks that differ only there stop alike or answer alike (10_state.md rule R19, 43_serializer.md
rule R95; the free values of log entry 4 hold for every value). -/
def Obligations.NothingDependsOnTheUnspecifiedState : Prop :=
  ∀ (l : List Instr) (s : State) (num : Word) (blen : Byte) (m : Memory), s.unusable = true →
    let s' : State := { s with num := num, blen := blen, store := m }
    (∀ f, execAll l s = .fault f ↔ execAll l s' = .fault f) ∧
    ∀ t, execAll l s = .next t → ∃ t', execAll l s' = .next t' ∧ t'.responses = t.responses ∧ t'.unusable = t.unusable ∧
      (t.unusable = false → t' = t)
end

