-- ==== Sys2Proof/Laws/Decode.lean ====
section
/-! SUPPORT. The fields of a command word are the operands it was made from (30_encoding.md rule R35), and the decoder's one
inversion: the opcode of what it gives is the opcode of the word. -/

namespace Sys2Proof

theorem toNat_commandWord (op : Byte) (a b : Word) :
    (commandWord op a b).toNat = b.toNat * 2 ^ 72 + a.toNat * 2 ^ 8 + op.toNat := by
  rw [commandWord, BitVec.toNat_append, BitVec.toNat_append, ← Nat.shiftLeft_add_eq_or_of_lt a.isLt,
    ← Nat.shiftLeft_add_eq_or_of_lt op.isLt, Nat.shiftLeft_eq, Nat.shiftLeft_eq]
  omega

theorem opField_commandWord (op : Byte) (a b : Word) : opField (commandWord op a b) = op := by
  have := op.isLt
  apply BitVec.eq_of_toNat_eq
  rw [opField, BitVec.extractLsb'_toNat, toNat_commandWord, Nat.shiftRight_eq_div_pow]
  omega

theorem operandA_commandWord (op : Byte) (a b : Word) : operandA (commandWord op a b) = a := by
  have := op.isLt; have := a.isLt
  apply BitVec.eq_of_toNat_eq
  rw [operandA, BitVec.extractLsb'_toNat, toNat_commandWord, Nat.shiftRight_eq_div_pow]
  omega

theorem operandB_commandWord (op : Byte) (a b : Word) : operandB (commandWord op a b) = b := by
  have := op.isLt; have := a.isLt; have := b.isLt
  apply BitVec.eq_of_toNat_eq
  rw [operandB, BitVec.extractLsb'_toNat, toNat_commandWord, Nat.shiftRight_eq_div_pow]
  omega

theorem widthOperand_setWidth (blen : Byte) : widthOperand (blen.setWidth 64) = blen := by
  have := blen.isLt
  apply BitVec.eq_of_toNat_eq
  rw [widthOperand, BitVec.extractLsb'_toNat, BitVec.toNat_setWidth, Nat.shiftRight_eq_div_pow]
  omega

/-- What the decoder gives is well-formed. -/
theorem decode_wellFormed {r : Request} {i : Instr} (h : decode r = .ok i) : i.wellFormed = true := by
  unfold decode at h
  split at h <;> try (simp only [Except.ok.injEq] at h; subst h; rfl)
  · split at h
    · next hw => simp only [Except.ok.injEq] at h; exact h ▸ hw
    · exact absurd h (by simp)
  · exact absurd h (by simp)

/-- What the decoder gives has the opcode of the word it read (30_encoding.md rule R37). -/
theorem opField_of_decode {r : Request} {i : Instr} (h : decode r = .ok i) : opField r.cw = i.opcode := by
  unfold decode at h
  split at h <;> (try split at h) <;> simp only [Except.ok.injEq, reduceCtorEq] at h <;> subst h <;>
    exact BitVec.eq_of_toNat_eq (by assumption)

end Sys2Proof
end

