-- ==== Sys2Proof/Laws/Memory.lean ====
section
/-! SUPPORT. The store: read after write, and the canonical form, kept by every operation and unique for what is read. -/

namespace Sys2Proof.Machine.Memory

open Sys2Proof

theorem wf_nil : Memory.wf [] := by simp [Memory.wf]

@[simp] theorem read_nil (a : Nat) : Memory.read [] a = 0 := rfl

theorem wf_cons {b : Nat} {w : Word} {m : Memory} :
    Memory.wf ((b, w) :: m) ↔ w ≠ 0 ∧ (∀ p ∈ m, b < p.1) ∧ Memory.wf m := by
  simp only [Memory.wf, List.pairwise_cons, List.forall_mem_cons, Memory.unlisted]
  tauto

/-- No entry at an address: it reads as an unlisted one. -/
theorem read_eq_zero {m : Memory} {a : Nat} (h : ∀ p ∈ m, p.1 ≠ a) : Memory.read m a = 0 := by
  induction m with
  | nil => rfl
  | cons p m ih =>
    obtain ⟨b, w⟩ := p
    have hb : b ≠ a := h (b, w) (by simp)
    simp only [Memory.read, if_neg hb]
    exact ih fun p hp => h p (by simp [hp])

/-- A listed cell reads as its word. -/
theorem read_of_mem {m : Memory} (hm : Memory.wf m) {p : Nat × Word} (hp : p ∈ m) : Memory.read m p.1 = p.2 := by
  induction m with
  | nil => simp at hp
  | cons q m ih =>
    obtain ⟨b, w⟩ := q
    rw [wf_cons] at hm
    rcases List.mem_cons.1 hp with rfl | hp
    · simp [Memory.read]
    · have := hm.2.1 p hp
      simp only [Memory.read, if_neg (by omega : b ≠ p.1)]
      exact ih hm.2.2 hp

theorem read_consCell {a : Nat} {v : Word} {m : Memory} (h : ∀ p ∈ m, p.1 ≠ a) (c : Nat) :
    Memory.read (Memory.consCell a v m) c = if c = a then v else Memory.read m c := by
  unfold Memory.consCell
  by_cases hv : v = Memory.unlisted
  · simp only [if_pos hv]
    by_cases hc : c = a
    · subst hc; simp [read_eq_zero h, hv, Memory.unlisted]
    · simp [hc]
  · simp only [if_neg hv, Memory.read, eq_comm (a := a)]

theorem mem_consCell {a : Nat} {v : Word} {m : Memory} {p : Nat × Word} (h : p ∈ Memory.consCell a v m) :
    p.1 = a ∨ p ∈ m := by
  unfold Memory.consCell at h
  split at h
  · exact .inr h
  · rcases List.mem_cons.1 h with rfl | h
    · exact .inl rfl
    · exact .inr h

theorem wf_consCell {a : Nat} {v : Word} {m : Memory} (hm : Memory.wf m) (h : ∀ p ∈ m, a < p.1) :
    Memory.wf (Memory.consCell a v m) := by
  unfold Memory.consCell
  split
  · exact hm
  · next hv => exact wf_cons.2 ⟨hv, h, hm⟩

theorem mem_write {m : Memory} {a : Nat} {v : Word} {p : Nat × Word} (h : p ∈ Memory.write m a v) :
    p.1 = a ∨ p ∈ m := by
  induction m with
  | nil => exact mem_consCell h
  | cons q m ih =>
    obtain ⟨b, w⟩ := q
    simp only [Memory.write] at h
    split at h
    · exact mem_consCell h
    · split at h
      · exact (mem_consCell h).imp_right fun h => by simp [h]
      · rcases List.mem_cons.1 h with rfl | h
        · exact .inr (by simp)
        · exact (ih h).imp_right fun h => by simp [h]

/-- Every write keeps the canonical form. -/
theorem wf_write {m : Memory} (hm : Memory.wf m) (a : Nat) (v : Word) : Memory.wf (Memory.write m a v) := by
  induction m with
  | nil => exact wf_consCell wf_nil (by simp)
  | cons q m ih =>
    obtain ⟨b, w⟩ := q
    have hc := wf_cons.1 hm
    simp only [Memory.write]
    split
    · next hab =>
      refine wf_consCell hm ?_
      intro p hp
      rcases List.mem_cons.1 hp with rfl | hp
      · exact hab
      · exact lt_trans hab (hc.2.1 p hp)
    · split
      · next hab => subst hab; exact wf_consCell hc.2.2 hc.2.1
      · next h1 h2 =>
        refine wf_cons.2 ⟨hc.1, ?_, ih hc.2.2⟩
        intro p hp
        rcases mem_write hp with rfl | hp
        · omega
        · exact hc.2.1 p hp

/-- Read after write: the written address gives the written word, every other address what it gave before. -/
theorem read_write {m : Memory} (hm : Memory.wf m) (a : Nat) (v : Word) (c : Nat) :
    Memory.read (Memory.write m a v) c = if c = a then v else Memory.read m c := by
  induction m with
  | nil => exact read_consCell (by simp) c
  | cons q m ih =>
    obtain ⟨b, w⟩ := q
    have hc := wf_cons.1 hm
    simp only [Memory.write]
    split
    · next hab =>
      refine read_consCell ?_ c
      intro p hp
      rcases List.mem_cons.1 hp with rfl | hp
      · exact ne_of_gt hab
      · exact ne_of_gt (lt_trans hab (hc.2.1 p hp))
    · split
      · next hab =>
        subst hab
        rw [read_consCell (fun p hp => ne_of_gt (hc.2.1 p hp))]
        by_cases h : c = a
        · simp [h]
        · simp [h, Memory.read, Ne.symm h]
      · next h1 h2 =>
        simp only [Memory.read, ih hc.2.2]
        by_cases hb : b = c
        · subst hb; simp [Ne.symm h2]
        · simp [hb]

/-- Two canonical stores that read alike are the same list: equal stores are equal data. -/
theorem ext_read {m m' : Memory} (hm : Memory.wf m) (hm' : Memory.wf m') (h : ∀ a, Memory.read m a = Memory.read m' a) :
    m = m' := by
  induction m generalizing m' with
  | nil =>
    cases m' with
    | nil => rfl
    | cons q m' =>
      obtain ⟨b, w⟩ := q
      have := h b
      simp only [Memory.read, if_pos] at this
      exact absurd this.symm (wf_cons.1 hm').1
  | cons p m ih =>
    obtain ⟨a, v⟩ := p
    have hc := wf_cons.1 hm
    cases m' with
    | nil =>
      have := h a
      simp only [Memory.read, if_pos] at this
      exact absurd this hc.1
    | cons q m' =>
      obtain ⟨b, w⟩ := q
      have hc' := wf_cons.1 hm'
      have below (x : Nat) (l : Memory) (hl : ∀ p ∈ l, x < p.1) (y : Nat) (hy : y ≤ x) : Memory.read l y = 0 :=
        read_eq_zero fun p hp => by have := hl p hp; omega
      have hab : a = b := by
        by_contra hne
        rcases Nat.lt_or_gt_of_ne hne with hlt | hgt
        · have := h a
          simp only [Memory.read, if_pos, if_neg (Ne.symm hne)] at this
          exact hc.1 (this.trans (below b m' hc'.2.1 a hlt.le))
        · have := h b
          simp only [Memory.read, if_pos, if_neg hne] at this
          exact hc'.1 (this.symm.trans (below a m hc.2.1 b hgt.le))
      subst hab
      have hvw : v = w := by simpa [Memory.read] using h a
      subst hvw
      congr 1
      refine ih hc.2.2 hc'.2.2 fun c => ?_
      by_cases hca : a = c
      · subst hca; rw [below a m hc.2.1 a le_rfl, below a m' hc'.2.1 a le_rfl]
      · simpa [Memory.read, hca] using h c

theorem mem_ofWordsFrom {a : Nat} {ws : List Word} {p : Nat × Word} (h : p ∈ Memory.ofWordsFrom a ws) :
    a ≤ p.1 ∧ p.1 < a + ws.length := by
  induction ws generalizing a with
  | nil => simp [Memory.ofWordsFrom] at h
  | cons w ws ih =>
    rcases mem_consCell h with rfl | h
    · simp
    · have := ih h; simp only [List.length_cons]; omega

theorem wf_ofWordsFrom (a : Nat) (ws : List Word) : Memory.wf (Memory.ofWordsFrom a ws) := by
  induction ws generalizing a with
  | nil => exact wf_nil
  | cons w ws ih => exact wf_consCell (ih _) fun p hp => by have := mem_ofWordsFrom hp; omega

theorem wf_ofWords (ws : List Word) : Memory.wf (Memory.ofWords ws) := wf_ofWordsFrom 0 ws

theorem read_ofWordsFrom (a : Nat) (ws : List Word) (c : Nat) :
    Memory.read (Memory.ofWordsFrom a ws) c = if c < a then 0 else ws.getD (c - a) 0 := by
  induction ws generalizing a with
  | nil => simp [Memory.ofWordsFrom]
  | cons w ws ih =>
    rw [Memory.ofWordsFrom, read_consCell (fun p hp => by have := mem_ofWordsFrom hp; omega), ih]
    rcases Nat.lt_trichotomy c a with h | rfl | h
    · simp [h, Nat.ne_of_lt h, Nat.lt_succ_of_lt h]
    · simp
    · obtain ⟨k, rfl⟩ : ∃ k, c = a + k + 1 := ⟨c - a - 1, by omega⟩
      rw [if_neg (by omega), if_neg (by omega), if_neg (by omega), show a + k + 1 - (a + 1) = k by omega,
        show a + k + 1 - a = k + 1 by omega]
      simp

/-- The store made from a list of words holds them at addresses 0, 1, ... -/
theorem read_ofWords (ws : List Word) (c : Nat) : Memory.read (Memory.ofWords ws) c = ws.getD c 0 := by
  simp [Memory.ofWords, read_ofWordsFrom]

@[simp] theorem length_words (m : Memory) (n : Nat) : (Memory.words m n).length = n := by simp [Memory.words]

theorem words_ofWords (ws : List Word) : Memory.words (Memory.ofWords ws) ws.length = ws := by
  apply List.ext_getElem
  · simp
  · intro i h1 h2
    simp [Memory.words, read_ofWords, h2]

/-- A canonical store with nothing listed at or above `n` is made of its first `n` words. -/
theorem ofWords_words {m : Memory} (hm : Memory.wf m) {n : Nat} (hn : ∀ p ∈ m, p.1 < n) :
    Memory.ofWords (Memory.words m n) = m := by
  refine ext_read (wf_ofWords _) hm fun a => ?_
  rw [read_ofWords]
  by_cases h : a < n
  · simp [Memory.words, List.getD_eq_getElem?_getD, h]
  · rw [List.getD_eq_default _ _ (by simpa using h), read_eq_zero]
    intro p hp; have := hn p hp; omega

/-- In a canonical store, nothing is listed at or above `n` exactly when every word from `n` on reads 0. -/
theorem listed_below_iff {m : Memory} (hm : Memory.wf m) (n : Nat) :
    (∀ p ∈ m, p.1 < n) ↔ ∀ a, n ≤ a → Memory.read m a = 0 := by
  constructor
  · exact fun h a ha => read_eq_zero fun p hp => by have := h p hp; omega
  · intro h p hp
    by_contra hlt
    exact hm.2 p hp ((read_of_mem hm hp).symm.trans (h p.1 (by omega)))

end Sys2Proof.Machine.Memory
end

