-- ==== Sys2Proof/Laws/State.lean ====
section
/-! SUPPORT. One lemma per field per update of State, true by rfl, so that no later proof unfolds a record update. -/

namespace Sys2Proof.Machine.State

open Sys2Proof

variable (s : State) (st : Status) (d : Word) (p : List Byte) (n : Word) (b : Byte) (m : Memory) (c : Config)

/-! respond -/
@[simp] theorem respond_cfg : (s.respond st d p).cfg = s.cfg := rfl
@[simp] theorem respond_num : (s.respond st d p).num = s.num := rfl
@[simp] theorem respond_blen : (s.respond st d p).blen = s.blen := rfl
@[simp] theorem respond_store : (s.respond st d p).store = s.store := rfl
@[simp] theorem respond_unusable : (s.respond st d p).unusable = s.unusable := rfl
@[simp] theorem respond_draws : (s.respond st d p).draws = s.draws := rfl
@[simp] theorem respond_pending : (s.respond st d p).pending = s.pending := rfl
@[simp] theorem respond_responses :
    (s.respond st d p).responses = s.responses ++ [{ status := st, data := d, payload := p }] := rfl
@[simp] theorem respond_nwords : (s.respond st d p).nwords = s.nwords := rfl

/-! raise -/
@[simp] theorem raise_cfg : (s.raise st).cfg = s.cfg := rfl
@[simp] theorem raise_num : (s.raise st).num = s.num := rfl
@[simp] theorem raise_blen : (s.raise st).blen = s.blen := rfl
@[simp] theorem raise_store : (s.raise st).store = s.store := rfl
@[simp] theorem raise_unusable : (s.raise st).unusable = s.unusable := rfl
@[simp] theorem raise_draws : (s.raise st).draws = s.draws := rfl
@[simp] theorem raise_pending : (s.raise st).pending = s.pending := rfl
@[simp] theorem raise_responses :
    (s.raise st).responses = s.responses ++ [{ status := st, data := 0, payload := [] }] := rfl
@[simp] theorem raise_nwords : (s.raise st).nwords = s.nwords := rfl

/-! makeVector -/
@[simp] theorem makeVector_cfg : (s.makeVector n b m).cfg = s.cfg := rfl
@[simp] theorem makeVector_num : (s.makeVector n b m).num = n := rfl
@[simp] theorem makeVector_blen : (s.makeVector n b m).blen = b := rfl
@[simp] theorem makeVector_store : (s.makeVector n b m).store = m := rfl
@[simp] theorem makeVector_unusable : (s.makeVector n b m).unusable = false := rfl
@[simp] theorem makeVector_draws : (s.makeVector n b m).draws = s.draws := rfl
@[simp] theorem makeVector_pending : (s.makeVector n b m).pending = s.pending := rfl
@[simp] theorem makeVector_responses : (s.makeVector n b m).responses = s.responses := rfl
@[simp] theorem makeVector_nwords : (s.makeVector n b m).nwords = wordsNeeded n.toNat b.toNat := rfl

/-! loseVector (the free values of NUM, BLEN and the store have no lemma: nothing is known of them) -/
@[simp] theorem loseVector_cfg : s.loseVector.cfg = s.cfg := rfl
@[simp] theorem loseVector_unusable : s.loseVector.unusable = true := rfl
@[simp] theorem loseVector_draws : s.loseVector.draws = s.draws + 1 := rfl
@[simp] theorem loseVector_pending : s.loseVector.pending = s.pending := rfl
@[simp] theorem loseVector_responses : s.loseVector.responses = s.responses := rfl

/-! resetBlock -/
@[simp] theorem resetBlock_cfg : s.resetBlock.cfg = s.cfg := rfl
@[simp] theorem resetBlock_num : s.resetBlock.num = 0 := rfl
@[simp] theorem resetBlock_blen : s.resetBlock.blen = 0 := rfl
@[simp] theorem resetBlock_store : s.resetBlock.store = [] := rfl
@[simp] theorem resetBlock_unusable : s.resetBlock.unusable = false := rfl
@[simp] theorem resetBlock_draws : s.resetBlock.draws = s.draws := rfl
@[simp] theorem resetBlock_pending : s.resetBlock.pending = s.pending := rfl
@[simp] theorem resetBlock_responses : s.resetBlock.responses = s.responses := rfl

/-! resetWith -/
@[simp] theorem resetWith_cfg : (State.resetWith c).cfg = c := rfl
@[simp] theorem resetWith_num : (State.resetWith c).num = 0 := rfl
@[simp] theorem resetWith_blen : (State.resetWith c).blen = 0 := rfl
@[simp] theorem resetWith_store : (State.resetWith c).store = [] := rfl
@[simp] theorem resetWith_unusable : (State.resetWith c).unusable = false := rfl
@[simp] theorem resetWith_pending : (State.resetWith c).pending = [] := rfl
@[simp] theorem resetWith_responses : (State.resetWith c).responses = [] := rfl

end Sys2Proof.Machine.State
end

