-- ==== Sys2Proof/Laws/Element.lean ====
section
/-! SUPPORT. What the extractor and the inserter do to the bit string the store is (20_memory.md rules R21, R22;
40_extractor.md rule R55; 41_inserter.md rule R63), and that an in-contract element lies in the store (R25). -/

namespace Sys2Proof.Machine

open Sys2Proof

theorem position_eq (b i : Nat) : i * b = 64 * blockOf b i + offsetOf b i := (Nat.div_add_mod _ 64).symm

theorem offsetOf_lt (b i : Nat) : offsetOf b i < 64 := Nat.mod_lt _ (by norm_num)

theorem straddles_iff (b i : Nat) : straddles b i = true ↔ 64 < offsetOf b i + b := by simp [straddles]

theorem getLsbD_mask (b j : Nat) : (mask b).getLsbD j = (decide (j < 64) && decide (j < b)) := by
  simp [mask, BitVec.getLsbD_ofNat, Nat.testBit_two_pow_sub_one]

/-- The mask stage keeps exactly the low BLEN bits. -/
theorem getLsbD_cutToWidth (b : Nat) (v : Word) (j : Nat) :
    (cutToWidth b v).getLsbD j = (decide (j < b) && v.getLsbD j) := by
  unfold cutToWidth
  split
  · rw [BitVec.getLsbD_and, getLsbD_mask]
    by_cases hj : j < 64
    · simp [hj, Bool.and_comm]
    · simp [BitVec.getLsbD_of_ge v j (by omega)]
  · by_cases hj : j < b
    · simp [hj]
    · simp [hj, BitVec.getLsbD_of_ge v j (by omega)]

/-- A word's bit, as a bit of the bit string. -/
theorem Memory.bit_word (m : Memory) (a k : Nat) (hk : k < 64) : m.bit (64 * a + k) = (Memory.read m a).getLsbD k := by
  rw [Memory.bit, show (64 * a + k) / 64 = a by omega, show (64 * a + k) % 64 = k by omega]

/-- Stores that agree bit by bit agree word by word. -/
theorem Memory.read_eq_of_bit {m m' : Memory} (a : Nat) (h : ∀ k < 64, m.bit (64 * a + k) = m'.bit (64 * a + k)) :
    Memory.read m a = Memory.read m' a := by
  apply BitVec.eq_of_getLsbD_eq
  intro k hk
  rw [← Memory.bit_word _ _ _ hk, ← Memory.bit_word _ _ _ hk, h k hk]

/-- Two canonical stores with the same bits are the same. -/
theorem Memory.ext_bit {m m' : Memory} (hm : Memory.wf m) (hm' : Memory.wf m') (h : ∀ g, m.bit g = m'.bit g) : m = m' :=
  Memory.ext_read hm hm' fun a => Memory.read_eq_of_bit a fun _ _ => h _

/-- The extractor returns the element's bits, zero-extended (R55). -/
theorem getLsbD_extractElement (m : Memory) {b : Nat} (hb : b ≤ 64) (i j : Nat) :
    (extractElement m b i).getLsbD j = (decide (j < b) && m.bit (i * b + j)) := by
  unfold extractElement
  by_cases h0 : b = 0
  · simp [h0]
  have ho := offsetOf_lt b i
  rw [if_neg h0, getLsbD_cutToWidth]
  by_cases hj : j < b
  swap
  · simp [hj]
  congr 1
  rw [position_eq b i, Nat.add_assoc]
  by_cases hlow : offsetOf b i + j < 64
  · rw [Memory.bit_word _ _ _ hlow]
    split
    · simp [BitVec.getLsbD_or, BitVec.getLsbD_shiftLeft, show j < 64 - offsetOf b i by omega]
    · simp
  · have hs : straddles b i = true := (straddles_iff b i).2 (by omega)
    rw [if_pos hs, show 64 * blockOf b i + (offsetOf b i + j) = 64 * (blockOf b i + 1) + (offsetOf b i + j - 64) by omega,
      Memory.bit_word _ _ _ (by omega), BitVec.getLsbD_or, BitVec.getLsbD_ushiftRight,
      BitVec.getLsbD_of_ge _ (offsetOf b i + j) (by omega), BitVec.getLsbD_shiftLeft,
      show j - (64 - offsetOf b i) = offsetOf b i + j - 64 by omega]
    simp [show j < 64 by omega, show ¬ j < 64 - offsetOf b i by omega]

theorem Memory.bit_write {m : Memory} (hm : Memory.wf m) (a : Nat) (v : Word) (g : Nat) :
    (Memory.write m a v).bit g = if g / 64 = a then v.getLsbD (g % 64) else m.bit g := by
  rw [Memory.bit, Memory.read_write hm]
  split <;> rfl

theorem wf_insertElement {m : Memory} (hm : Memory.wf m) (b i : Nat) (v : Word) : Memory.wf (insertElement m b i v) := by
  unfold insertElement
  split
  · exact hm
  · dsimp only
    split
    · exact Memory.wf_write (Memory.wf_write hm _ _) _ _
    · exact Memory.wf_write hm _ _

/-- The inserter ORs the value's low BLEN bits into the element's own bits and leaves every other bit as it was (R63). -/
theorem bit_insertElement {m : Memory} (hm : Memory.wf m) {b : Nat} (hb : b ≤ 64) (i : Nat) (v : Word) (g : Nat) :
    (insertElement m b i v).bit g =
      (m.bit g || (decide (i * b ≤ g ∧ g < i * b + b) && v.getLsbD (g - i * b))) := by
  unfold insertElement
  by_cases h0 : b = 0
  · subst h0
    have : ¬ (i * 0 ≤ g ∧ g < i * 0 + 0) := by omega
    simp
  have ho := offsetOf_lt b i
  rw [if_neg h0, position_eq b i]
  dsimp only
  generalize hk : blockOf b i = k
  generalize hofs : offsetOf b i = o at *
  obtain ⟨q, r, hr, rfl⟩ : ∃ q r, r < 64 ∧ g = 64 * q + r := ⟨g / 64, g % 64, Nat.mod_lt _ (by norm_num), by omega⟩
  have hs := straddles_iff b i
  rw [hofs] at hs
  have hdiv : (64 * q + r) / 64 = q := by omega
  have hmod : (64 * q + r) % 64 = r := by omega
  have hm1 := Memory.wf_write hm k (Memory.read m k ||| cutToWidth b v <<< o)
  have first : (Memory.write m k (Memory.read m k ||| cutToWidth b v <<< o)).bit (64 * q + r) =
      (m.bit (64 * q + r) || (decide (q = k ∧ o ≤ r ∧ r < o + b) && v.getLsbD (r - o))) := by
    rw [Memory.bit_write hm, hdiv, hmod, Memory.bit_word _ _ _ hr]
    by_cases hq : q = k
    · subst hq
      rw [if_pos rfl, BitVec.getLsbD_or, BitVec.getLsbD_shiftLeft, getLsbD_cutToWidth]
      by_cases hro : o ≤ r
      · simp [hr, hro, show ¬ r < o by omega, show (r - o < b) ↔ (r < o + b) by omega]
      · simp [hro, show r < o by omega]
    · simp [hq]
  by_cases hst : straddles b i = true
  · have hob := hs.1 hst
    rw [if_pos hst, Memory.bit_write hm1, hdiv, hmod, first, Memory.read_write hm, if_neg (by omega : ¬ k + 1 = k)]
    by_cases hq1 : q = k + 1
    · subst hq1
      rw [if_pos rfl, BitVec.getLsbD_or, BitVec.getLsbD_ushiftRight, getLsbD_cutToWidth, Memory.bit_word _ _ _ hr,
        show 64 * (k + 1) + r - (64 * k + o) = 64 - o + r by omega]
      congr 2
      simp only [decide_eq_decide]
      omega
    · rw [if_neg hq1]
      by_cases hq : q = k
      · subst hq
        rw [show 64 * q + r - (64 * q + o) = r - o by omega]
        congr 2
        simp only [decide_eq_decide, true_and]
        omega
      · rw [decide_eq_false (by tauto), decide_eq_false (by omega), Bool.false_and, Bool.false_and]
  · have hob : ¬ 64 < o + b := fun h => hst (hs.2 h)
    rw [if_neg hst, first]
    by_cases hq : q = k
    · subst hq
      rw [show 64 * q + r - (64 * q + o) = r - o by omega]
      congr 2
      simp only [decide_eq_decide, true_and]
      omega
    · rw [decide_eq_false (by tauto), decide_eq_false (by omega), Bool.false_and, Bool.false_and]

/-- A word the element does not touch reads as before (20_memory.md rule R26). -/
theorem read_insertElement_of_untouched {m : Memory} (hm : Memory.wf m) (b i : Nat) (v : Word) (a : Nat)
    (h1 : a ≠ blockOf b i) (h2 : straddles b i = true → a ≠ blockOf b i + 1) :
    Memory.read (insertElement m b i v) a = Memory.read m a := by
  unfold insertElement
  split
  · rfl
  · dsimp only
    split
    · next hs => rw [Memory.read_write (Memory.wf_write hm _ _), if_neg (h2 hs), Memory.read_write hm, if_neg h1]
    · rw [Memory.read_write hm, if_neg h1]

/-- Only a word the element touches can be listed anew. -/
theorem mem_insertElement {m : Memory} {b i : Nat} {v : Word} {p : Nat × Word} (h : p ∈ insertElement m b i v) :
    p ∈ m ∨ b ≠ 0 ∧ (p.1 = blockOf b i ∨ straddles b i = true ∧ p.1 = blockOf b i + 1) := by
  unfold insertElement at h
  split at h
  · exact .inl h
  · next h0 =>
    dsimp only at h
    split at h
    · next hs =>
      rcases Memory.mem_write h with h | h
      · exact .inr ⟨h0, .inr ⟨hs, h⟩⟩
      · exact (Memory.mem_write h).elim (fun h => .inr ⟨h0, .inl h⟩) .inl
    · exact (Memory.mem_write h).elim (fun h => .inr ⟨h0, .inl h⟩) .inl

/-- The words an element below `num` touches are all needed for `num` elements (20_memory.md rule R25). -/
theorem touched_lt_wordsNeeded {num b i : Nat} (h0 : b ≠ 0) (hi : i < num) :
    blockOf b i < wordsNeeded num b ∧ (straddles b i = true → blockOf b i + 1 < wordsNeeded num b) := by
  have hp := position_eq b i
  have ho := offsetOf_lt b i
  have hmul : (i + 1) * b ≤ num * b := Nat.mul_le_mul_right b hi
  rw [Nat.add_mul, one_mul, hp] at hmul
  rw [straddles_iff, wordsNeeded, ceilDiv]
  constructor
  · omega
  · intro hs; omega

/-- An element access that does not stop is in contract. -/
theorem State.elementFault_eq_none_iff (s : State) (index : Word) (bounds : Fault) :
    s.elementFault index bounds = none ↔ s.unusable = false ∧ index.toNat < s.num.toNat := by
  unfold State.elementFault
  cases s.unusable
  · by_cases h : s.num.toNat ≤ index.toNat
    · simp [h]
    · simp [h, Nat.lt_of_not_le h]
  · simp

theorem State.elementFault_none {s : State} {index : Word} {bounds : Fault} (hu : s.unusable = false)
    (hi : index.toNat < s.num.toNat) : s.elementFault index bounds = none :=
  (s.elementFault_eq_none_iff index bounds).2 ⟨hu, hi⟩

/-! ### The two datapaths together -/

/-- A bit of element `n` lies in element `i` exactly when they are the same element. -/
theorem element_bit_owner {b j : Nat} (hj : j < b) (i n : Nat) :
    (i * b ≤ n * b + j ∧ n * b + j < i * b + b) ↔ n = i := by
  constructor
  · rintro ⟨h1, h2⟩
    rcases Nat.lt_trichotomy n i with h | h | h
    · have : (n + 1) * b ≤ i * b := Nat.mul_le_mul_right b h
      rw [Nat.add_mul, one_mul] at this; omega
    · exact h
    · have : (i + 1) * b ≤ n * b := Nat.mul_le_mul_right b h
      rw [Nat.add_mul, one_mul] at this; omega
  · rintro rfl; omega

/-- SET of element `i`, seen from element `n`. -/
theorem bit_insertElement_element {m : Memory} (hm : Memory.wf m) {b : Nat} (hb : b ≤ 64) (i : Nat) (v : Word) (n : Nat)
    {j : Nat} (hj : j < b) :
    (insertElement m b i v).bit (n * b + j) = (m.bit (n * b + j) || (decide (n = i) && v.getLsbD j)) := by
  rw [bit_insertElement hm hb]
  simp only [element_bit_owner hj]
  by_cases h : n = i
  · subst h; simp
  · simp [h]

/-- Cutting a value to BLEN bits is taking it modulo 2^BLEN. -/
theorem ofNat_mod_eq_cutToWidth (b : Nat) (v : Word) : BitVec.ofNat 64 (v.toNat % 2 ^ b) = cutToWidth b v := by
  apply BitVec.eq_of_getLsbD_eq
  intro j hj
  rw [getLsbD_cutToWidth, BitVec.getLsbD_ofNat, Nat.testBit_mod_two_pow, BitVec.testBit_toNat]
  simp [hj]

/-- Every element of a store of zeros is 0. -/
theorem extractElement_nil {b : Nat} (hb : b ≤ 64) (i : Nat) : extractElement [] b i = 0 := by
  apply BitVec.eq_of_getLsbD_eq
  intro j _
  rw [getLsbD_extractElement _ hb]
  simp [Memory.bit]

/-- What the extractor reads after the inserter has written: the OR in the same element, the old value in every other one. -/
theorem extractElement_insertElement {m : Memory} (hm : Memory.wf m) {b : Nat} (hb : b ≤ 64) (i : Nat) (v : Word) (n : Nat) :
    extractElement (insertElement m b i v) b n =
      if n = i then extractElement m b n ||| cutToWidth b v else extractElement m b n := by
  apply BitVec.eq_of_getLsbD_eq
  intro j _
  rw [getLsbD_extractElement _ hb]
  by_cases hj : j < b
  · rw [bit_insertElement_element hm hb _ _ _ hj]
    split
    · rw [BitVec.getLsbD_or, getLsbD_extractElement _ hb, getLsbD_cutToWidth]; simp [*]
    · rw [getLsbD_extractElement _ hb]; simp [*]
  · split <;> simp [getLsbD_extractElement _ hb, getLsbD_cutToWidth, hj]

end Sys2Proof.Machine
end

