-- ==== Sys2Proof/Laws/Width.lean ====
section
/-! SUPPORT. Width inference (42_construction.md rules R74, R75) and the load phase of NEWFROMARRAY (R76). -/

namespace Sys2Proof.Machine

open Sys2Proof

/-- What the `dim` loop computes from `d`: a bound above every value, reached by `d` or by one more than some value. -/
theorem foldl_dimStep (d : Nat) (vs : List Word) :
    d ≤ vs.foldl dimStep d ∧ (∀ v ∈ vs, v.toNat < vs.foldl dimStep d) ∧
      (vs.foldl dimStep d = d ∨ ∃ v ∈ vs, vs.foldl dimStep d = v.toNat + 1) := by
  induction vs generalizing d with
  | nil => simp
  | cons v vs ih =>
    obtain ⟨h1, h2, h3⟩ := ih (dimStep d v)
    have hs : d ≤ dimStep d v ∧ v.toNat < dimStep d v ∧ (dimStep d v = d ∨ dimStep d v = v.toNat + 1) := by
      unfold dimStep; split <;> omega
    rw [List.foldl_cons]
    refine ⟨by omega, ?_, ?_⟩
    · intro u hu
      rcases List.mem_cons.1 hu with rfl | hu
      · omega
      · exact h2 u hu
    · rcases h3 with h3 | ⟨u, hu, h3⟩
      · rcases hs.2.2 with hs | hs
        · exact .inl (h3.trans hs)
        · exact .inr ⟨v, by simp, h3.trans hs⟩
      · exact .inr ⟨u, by simp [hu], h3⟩

theorem leastWidth_spec {x : Nat} (hx : x < 2 ^ 64) :
    leastWidth x ≤ 64 ∧ x < 2 ^ leastWidth x ∧ ∀ b, x < 2 ^ b → leastWidth x ≤ b := by
  have key (b : Nat) : (x / 2 ^ b == 0) = true ↔ x < 2 ^ b := by
    rw [beq_iff_eq, Nat.div_eq_zero_iff]; simp
  unfold leastWidth
  cases h : (List.range 65).find? fun b => x / 2 ^ b == 0 with
  | none =>
    rw [List.find?_eq_none] at h
    exact absurd ((key 64).2 hx) (by simpa using h 64 (by simp))
  | some w =>
    rw [List.find?_range_eq_some] at h
    obtain ⟨h1, h2, h3⟩ := h
    simp only [Option.getD_some]
    refine ⟨by simpa [Nat.lt_succ_iff] using h2, (key w).1 h1, fun b hb => ?_⟩
    by_contra hlt
    have := h3 b (by omega)
    rw [Bool.not_eq_true', Bool.eq_false_iff] at this
    exact this ((key b).2 hb)

/-- The inferred width is the least at which every value fits, and is at most 64. -/
theorem inferWidth_spec (values : List Word) :
    inferWidth values ≤ 64 ∧ (∀ v ∈ values, v.toNat < 2 ^ inferWidth values) ∧
      ∀ b, (∀ v ∈ values, v.toNat < 2 ^ b) → inferWidth values ≤ b := by
  obtain ⟨-, hlt, hmax⟩ := foldl_dimStep 0 values
  unfold inferWidth
  change (∀ v ∈ values, v.toNat < inferDim values) at hlt
  change inferDim values = 0 ∨ ∃ v ∈ values, inferDim values = v.toNat + 1 at hmax
  split
  · next h => exact ⟨by omega, fun v hv => by have := hlt v hv; rw [pow_zero]; omega, fun b _ => by omega⟩
  · next h =>
    obtain ⟨v, hv, hd⟩ := hmax.resolve_left (by omega)
    obtain ⟨h1, h2, h3⟩ := leastWidth_spec (x := inferDim values - 1) (by rw [hd]; have := v.isLt; omega)
    exact ⟨h1, fun u hu => lt_of_le_of_lt (by have := hlt u hu; omega) h2,
      fun b hb => h3 b (by have := hb v hv; omega)⟩

theorem wf_loadElements {m : Memory} (hm : Memory.wf m) (b i : Nat) (vs : List Word) :
    Memory.wf (loadElements b i vs m) := by
  induction vs generalizing i m with
  | nil => exact hm
  | cons v vs ih => exact ih (wf_insertElement hm b i v) (i + 1)

/-- After the load phase, element `n` has the bits it had, ORed with those of its value if it has one. -/
theorem bit_loadElements {m : Memory} (hm : Memory.wf m) {b : Nat} (hb : b ≤ 64) (i : Nat) (vs : List Word) (n : Nat)
    {j : Nat} (hj : j < b) :
    (loadElements b i vs m).bit (n * b + j) =
      (m.bit (n * b + j) || (decide (i ≤ n) && (vs.getD (n - i) 0).getLsbD j)) := by
  induction vs generalizing i m with
  | nil => simp [loadElements]
  | cons v vs ih =>
    rw [loadElements, ih (wf_insertElement hm b i v), bit_insertElement_element hm hb _ _ _ hj, Bool.or_assoc]
    congr 1
    rcases Nat.lt_trichotomy n i with h | rfl | h
    · simp [Nat.ne_of_lt h, show ¬ i + 1 ≤ n by omega, show ¬ i ≤ n by omega]
    · simp
    · obtain ⟨k, rfl⟩ : ∃ k, n = i + k + 1 := ⟨n - i - 1, by omega⟩
      simp [show i + k + 1 ≠ i by omega, show i + k + 1 - (i + 1) = k by omega, show i + k + 1 - i = k + 1 by omega,
        show i + 1 ≤ i + k + 1 by omega, show i ≤ i + k + 1 by omega]

/-- The load phase lists nothing outside the words the values need. -/
theorem mem_loadElements {m : Memory} {b i num : Nat} {vs : List Word} (hn : i + vs.length ≤ num) {p : Nat × Word}
    (hp : p ∈ loadElements b i vs m) : p ∈ m ∨ p.1 < wordsNeeded num b := by
  induction vs generalizing i m with
  | nil => exact .inl hp
  | cons v vs ih =>
    rw [List.length_cons] at hn
    rcases ih (m := insertElement m b i v) (i := i + 1) (by omega) hp with h | h
    · rcases mem_insertElement h with h | ⟨h0, h⟩
      · exact .inl h
      · have ht := touched_lt_wordsNeeded (num := num) h0 (by omega : i < num)
        rcases h with h | ⟨hs, h⟩
        · exact .inr (h ▸ ht.1)
        · exact .inr (h ▸ ht.2 hs)
    · exact .inr h

/-- A value that fits in `b` bits has no bit from `b` on. -/
theorem getLsbD_of_fits {v : Word} {b j : Nat} (hv : v.toNat < 2 ^ b) (hj : b ≤ j) : v.getLsbD j = false := by
  rw [← BitVec.testBit_toNat]
  exact Nat.testBit_lt_two_pow (lt_of_lt_of_le hv (Nat.pow_le_pow_right (by norm_num) hj))

/-- Reading element `n` after the load phase on an empty store gives its value (42_construction.md rule R81). -/
theorem extract_loadElements {b : Nat} (hb : b ≤ 64) {vs : List Word} (hfit : ∀ v ∈ vs, v.toNat < 2 ^ b) (n : Nat) :
    extractElement (loadElements b 0 vs []) b n = vs.getD n 0 := by
  apply BitVec.eq_of_getLsbD_eq
  intro j _
  rw [getLsbD_extractElement _ hb]
  by_cases hj : j < b
  · rw [bit_loadElements Memory.wf_nil hb 0 vs n hj]
    simp [Memory.bit, hj]
  · rw [decide_eq_false hj, Bool.false_and]
    rcases Nat.lt_or_ge n vs.length with h | h
    · rw [List.getD_eq_getElem _ _ h, getLsbD_of_fits (hfit _ (List.getElem_mem h)) (by omega)]
    · rw [List.getD_eq_default _ _ h]; simp

end Sys2Proof.Machine
end

