-- ==== Sys2Proof/Laws/Wire.lean ====
section
/-! SUPPORT. The wire format: le64 and its inverse, and the stream reader in both directions: it reads back what the writer
wrote, and what it accepts is what the writer would have written (43_serializer.md rules R99, R100). -/

namespace Sys2Proof.Machine

open Sys2Proof

theorem le64_eq (v : Word) :
    le64 v = [v.extractLsb' 0 8, v.extractLsb' 8 8, v.extractLsb' 16 8, v.extractLsb' 24 8, v.extractLsb' 32 8,
      v.extractLsb' 40 8, v.extractLsb' 48 8, v.extractLsb' 56 8] := rfl

@[simp] theorem length_le64 (v : Word) : (le64 v).length = 8 := rfl

theorem fromLe64_le64 (v : Word) : fromLe64 (le64 v) = v.toNat := by
  have := v.isLt
  simp only [le64_eq, fromLe64, BitVec.extractLsb'_toNat, Nat.shiftRight_eq_div_pow]
  omega

theorem expectWord_le64 (v : Word) (rest : List Byte) : expectWord (le64 v ++ rest) = .ok (v, rest) := by
  have ht : (le64 v ++ rest).take 8 = le64 v := List.take_left' rfl
  have hd : (le64 v ++ rest).drop 8 = rest := List.drop_left' rfl
  rw [expectWord, ht, hd, fromLe64_le64, if_neg (by simp)]
  simp

theorem expectWord_ok {s rest : List Byte} {v : Word} (h : expectWord s = .ok (v, rest)) : s = le64 v ++ rest := by
  unfold expectWord at h
  split at h
  · exact absurd h (by simp)
  · next hlen =>
    obtain ⟨b0, b1, b2, b3, b4, b5, b6, b7, t, rfl⟩ :
        ∃ b0 b1 b2 b3 b4 b5 b6 b7 t, s = b0 :: b1 :: b2 :: b3 :: b4 :: b5 :: b6 :: b7 :: t := by
      rcases s with _ | ⟨b0, _ | ⟨b1, _ | ⟨b2, _ | ⟨b3, _ | ⟨b4, _ | ⟨b5, _ | ⟨b6, _ | ⟨b7, t⟩⟩⟩⟩⟩⟩⟩⟩ <;> simp at hlen
      exact ⟨b0, b1, b2, b3, b4, b5, b6, b7, t, rfl⟩
    simp only [List.take_succ_cons, List.take_zero, List.drop_succ_cons, List.drop_zero, Except.ok.injEq,
      Prod.mk.injEq] at h
    obtain ⟨rfl, rfl⟩ := h
    rw [le64_eq]
    simp only [List.cons_append, List.nil_append, List.cons.injEq, and_true, ← BitVec.toNat_inj,
      BitVec.extractLsb'_toNat, BitVec.toNat_ofNat, Nat.shiftRight_eq_div_pow, fromLe64]
    have := b0.isLt; have := b1.isLt; have := b2.isLt; have := b3.isLt
    have := b4.isLt; have := b5.isLt; have := b6.isLt; have := b7.isLt
    omega

theorem expectWords_flatMap (ws : List Word) (rest : List Byte) :
    expectWords ws.length (ws.flatMap le64 ++ rest) = .ok (ws, rest) := by
  induction ws with
  | nil => rfl
  | cons w ws ih =>
    rw [List.length_cons, expectWords, List.flatMap_cons, List.append_assoc, expectWord_le64]
    simp only [ih]

theorem expectWords_ok {n : Nat} {s rest : List Byte} {ws : List Word} (h : expectWords n s = .ok (ws, rest)) :
    ws.length = n ∧ s = ws.flatMap le64 ++ rest := by
  induction n generalizing s ws with
  | zero =>
    simp only [expectWords, Except.ok.injEq, Prod.mk.injEq] at h
    obtain ⟨rfl, rfl⟩ := h
    simp
  | succ n ih =>
    rw [expectWords] at h
    split at h
    · exact absurd h (by simp)
    · next w s' hw =>
      split at h
      · exact absurd h (by simp)
      · next ws' s'' hws =>
        simp only [Except.ok.injEq, Prod.mk.injEq] at h
        obtain ⟨rfl, rfl⟩ := h
        obtain ⟨hl, rfl⟩ := ih hws
        exact ⟨by simp [hl], by rw [expectWord_ok hw, List.flatMap_cons, List.append_assoc]⟩

/-- A stream too short for the words that are due fails, whichever word it stops in. -/
theorem expectWords_short : ∀ (n : Nat) (s : List Byte), s.length < 8 * n → expectWords n s = .error .decodeError
  | 0, s, h => absurd h (by omega)
  | n + 1, s, h => by
    rw [expectWords, expectWord]
    by_cases h8 : s.length < 8
    · rw [if_pos h8]
    · rw [if_neg h8]
      simp only
      rw [expectWords_short n _ (by rw [List.length_drop]; omega)]

theorem expectTag_ok {tag : Byte} {s rest : List Byte} (h : expectTag tag s = .ok rest) : s = tag :: rest := by
  cases s with
  | nil => exact absurd h (by simp [expectTag])
  | cons b s =>
    rw [expectTag] at h
    split at h
    · next hb => simp only [Except.ok.injEq] at h; rw [hb, h]
    · exact absurd h (by simp)

theorem expectTag_cons (tag : Byte) (rest : List Byte) : expectTag tag (tag :: rest) = .ok rest := if_pos rfl

theorem expectByte_ok {s rest : List Byte} {b : Byte} (h : expectByte s = .ok (b, rest)) : s = b :: rest := by
  cases s with
  | nil => exact absurd h (by simp [expectByte])
  | cons c s => simp only [expectByte, Except.ok.injEq, Prod.mk.injEq] at h; rw [h.1, h.2]

theorem failIf_ok {bad : Bool} {e : Status} {u : Unit} (h : failIf bad e = .ok u) : bad = false := by
  cases bad with
  | false => rfl
  | true => exact absurd h (by simp [failIf])

/-- Peeling one read off a chain of them. -/
theorem bind_ok {α β : Type} {x : Except Status α} {f : α → Except Status β} {r : β} (h : (x >>= f) = .ok r) :
    ∃ a, x = .ok a ∧ f a = .ok r := by
  cases x with
  | error e => exact absurd h (by simp [bind, Except.bind])
  | ok a => exact ⟨a, rfl, h⟩

theorem ok_bind {α β : Type} (a : α) (f : α → Except Status β) : ((Except.ok a : Except Status α) >>= f) = f a := rfl

theorem error_bind {α β : Type} (e : Status) (f : α → Except Status β) :
    ((Except.error e : Except Status α) >>= f) = .error e := rfl

theorem wireBytes_eq (v : EncodedVector) : wireBytes v =
    0x01 :: (le64 (BitVec.ofNat 64 v.words.length) ++ (v.words.flatMap le64 ++ (0x02 :: (le64 v.num ++ [0x03, v.blen])))) := by
  simp [wireBytes]

/-- The encoded length is `8*nwords + 20` (43_serializer.md rule R89). -/
theorem length_wireBytes (v : EncodedVector) : (wireBytes v).length = 8 * v.words.length + 20 := by
  simp only [wireBytes_eq, List.length_cons, List.length_append, length_le64, List.length_flatMap, List.map_const',
    List.sum_replicate, List.length_nil, smul_eq_mul]
  omega

/-- What DECODE makes of three well-formed fields and anything after them: the two consistency checks of R94 decide. -/
theorem parseVector_wireBytes {depth : Nat} (v : EncodedVector) (rest : List Byte) (hd : depth < 2 ^ 64)
    (hlen : v.words.length ≤ depth) :
    parseVector depth (wireBytes v ++ rest) =
      if v.blen.toNat ≤ 64 ∧ v.words.length = wordsNeeded v.num.toNat v.blen.toNat then .ok (v, rest)
      else .error .decodeError := by
  have hc : (BitVec.ofNat 64 v.words.length).toNat = v.words.length := by
    rw [BitVec.toNat_ofNat]; exact Nat.mod_eq_of_lt (by omega)
  rw [wireBytes_eq, parseVector]
  simp only [List.cons_append, List.append_assoc, List.nil_append, expectTag_cons, expectWord_le64, expectWords_flatMap,
    expectByte, ok_bind, hc, failIf, show ¬ depth < v.words.length by omega, decide_false, Bool.false_eq_true, if_false]
  by_cases hb : v.blen.toNat ≤ 64
  · rw [decide_eq_false (by omega)]
    simp only [Bool.false_eq_true, if_false, ok_bind, hb, true_and]
    by_cases hw : v.words.length = wordsNeeded v.num.toNat v.blen.toNat
    · simp [hw, ok_bind, pure, Except.pure]
    · simp [hw]
  · rw [decide_eq_true (by omega)]
    simp [error_bind, hb]

/-- What DECODE accepts: the canonical encoding of the vector it gives, which fits the store and is consistent, and then bytes
it ignores (43_serializer.md rules R94, R96, R100). -/
theorem parseVector_ok {depth : Nat} {s rest : List Byte} {v : EncodedVector} (h : parseVector depth s = .ok (v, rest)) :
    s = wireBytes v ++ rest ∧ v.words.length ≤ depth ∧ v.blen.toNat ≤ 64 ∧
      v.words.length = wordsNeeded v.num.toNat v.blen.toNat := by
  unfold parseVector at h
  obtain ⟨s1, h1, h⟩ := bind_ok h
  obtain ⟨⟨cnt, s2⟩, h2, h⟩ := bind_ok h
  obtain ⟨_, h3, h⟩ := bind_ok h
  obtain ⟨⟨ws, s3⟩, h4, h⟩ := bind_ok h
  obtain ⟨s4, h5, h⟩ := bind_ok h
  obtain ⟨⟨num, s5⟩, h6, h⟩ := bind_ok h
  obtain ⟨s6, h7, h⟩ := bind_ok h
  obtain ⟨⟨blen, s7⟩, h8, h⟩ := bind_ok h
  obtain ⟨_, h9, h⟩ := bind_ok h
  obtain ⟨_, h10, h⟩ := bind_ok h
  simp only [pure, Except.pure, Except.ok.injEq, Prod.mk.injEq] at h
  obtain ⟨rfl, rfl⟩ := h
  have hd := of_decide_eq_false (failIf_ok h3)
  have hb := of_decide_eq_false (failIf_ok h9)
  have hw : cnt.toNat = wordsNeeded num.toNat blen.toNat := by simpa [bne] using failIf_ok h10
  obtain ⟨hlen, hs2⟩ := expectWords_ok h4
  refine ⟨?_, by simpa [hlen] using hd, by simpa using hb, by simpa [hlen] using hw⟩
  rw [wireBytes_eq, expectTag_ok h1, expectWord_ok h2, hs2, expectTag_ok h5, expectWord_ok h6, expectTag_ok h7,
    expectByte_ok h8, hlen]
  simp

/-- Peeling one read off a chain that fails: it fails, or a later one does. -/
theorem bind_error {α β : Type} {x : Except Status α} {f : α → Except Status β} {e : Status} (h : (x >>= f) = .error e) :
    x = .error e ∨ ∃ a, x = .ok a ∧ f a = .error e := by
  cases x with
  | error e' => exact .inl (by simpa [bind, Except.bind] using h)
  | ok a => exact .inr ⟨a, rfl, h⟩

theorem expectTag_error {tag : Byte} {s : List Byte} {e : Status} (h : expectTag tag s = .error e) : e = .decodeError := by
  cases s with
  | nil => simpa [expectTag] using h.symm
  | cons b s =>
    rw [expectTag] at h
    split at h
    · exact absurd h (by simp)
    · simpa using h.symm

theorem expectByte_error {s : List Byte} {e : Status} (h : expectByte s = .error e) : e = .decodeError := by
  cases s with
  | nil => simpa [expectByte] using h.symm
  | cons b s => exact absurd h (by simp [expectByte])

theorem expectWord_error {s : List Byte} {e : Status} (h : expectWord s = .error e) : e = .decodeError := by
  unfold expectWord at h
  split at h
  · simpa using h.symm
  · exact absurd h (by simp)

theorem expectWords_error {n : Nat} {s : List Byte} {e : Status} (h : expectWords n s = .error e) : e = .decodeError := by
  induction n generalizing s e with
  | zero => exact absurd h (by simp [expectWords])
  | succ n ih =>
    rw [expectWords] at h
    split at h
    · next he => simp only [Except.error.injEq] at h; exact h ▸ expectWord_error he
    · split at h
      · next he => simp only [Except.error.injEq] at h; exact h ▸ ih he
      · exact absurd h (by simp)

theorem failIf_error {bad : Bool} {e e' : Status} (h : failIf bad e = .error e') : e' = e := by
  cases bad with
  | false => exact absurd h (by simp [failIf])
  | true => simpa [failIf] using h.symm

/-- DECODE fails with DECODE_ERROR or CAPACITY and no other status (60_exceptions.md rule R106). -/
theorem parseVector_error {depth : Nat} {s : List Byte} {e : Status} (h : parseVector depth s = .error e) :
    e = .decodeError ∨ e = .capacity := by
  unfold parseVector at h
  rcases bind_error h with h | ⟨s1, -, h⟩
  · exact .inl (expectTag_error h)
  rcases bind_error h with h | ⟨⟨cnt, s2⟩, -, h⟩
  · exact .inl (expectWord_error h)
  rcases bind_error h with h | ⟨_, -, h⟩
  · exact .inr (failIf_error h)
  rcases bind_error h with h | ⟨⟨ws, s3⟩, -, h⟩
  · exact .inl (expectWords_error h)
  rcases bind_error h with h | ⟨s4, -, h⟩
  · exact .inl (expectTag_error h)
  rcases bind_error h with h | ⟨⟨num, s5⟩, -, h⟩
  · exact .inl (expectWord_error h)
  rcases bind_error h with h | ⟨s6, -, h⟩
  · exact .inl (expectTag_error h)
  rcases bind_error h with h | ⟨⟨blen, s7⟩, -, h⟩
  · exact .inl (expectByte_error h)
  rcases bind_error h with h | ⟨_, -, h⟩
  · exact .inl (failIf_error h)
  rcases bind_error h with h | ⟨_, -, h⟩
  · exact .inl (failIf_error h)
  · exact absurd h (by simp [pure, Except.pure])

end Sys2Proof.Machine
end

