-- ==== Sys2Proof/Laws/Exec.lean ====
section
/-! SUPPORT. Each meaning said once: when it completes and in which state, when it stops. Then what exec and step can do at
all, which callers cite instead of unfolding a meaning. -/

namespace Sys2Proof.Machine

open Sys2Proof

/-! ### One lemma per meaning -/

theorem execGet_eq (index : Word) (s : State) :
    execGet index s =
      if s.unusable then .fault .unusableState
      else if s.num.toNat ≤ index.toNat then .fault .getOutOfContract
      else .next (s.respond .ok (extractElement s.store s.blen.toNat index.toNat) []) := by
  unfold execGet State.elementFault
  split_ifs <;> rfl

theorem execSet_eq (index value : Word) (s : State) :
    execSet index value s =
      if s.unusable then .fault .unusableState
      else if s.num.toNat ≤ index.toNat then .fault .setOutOfContract
      else .next (State.respond { s with store := insertElement s.store s.blen.toNat index.toNat value } .ok 0 []) := by
  unfold execSet State.elementFault
  split_ifs <;> rfl

/-- GET in contract. -/
theorem execGet_next {index : Word} {s : State} (hu : s.unusable = false) (hi : index.toNat < s.num.toNat) :
    execGet index s = .next (s.respond .ok (extractElement s.store s.blen.toNat index.toNat) []) := by
  rw [execGet_eq, hu, if_neg (by simp), if_neg (by omega)]

/-- SET in contract. -/
theorem execSet_next {index value : Word} {s : State} (hu : s.unusable = false) (hi : index.toNat < s.num.toNat) :
    execSet index value s =
      .next (State.respond { s with store := insertElement s.store s.blen.toNat index.toNat value } .ok 0 []) := by
  rw [execSet_eq, hu, if_neg (by simp), if_neg (by omega)]

theorem execNew_eq (num : Word) (blen : Byte) (s : State) :
    execNew num blen s =
      if 64 < blen.toNat then .next (s.raise .invalidWidth)
      else if s.cfg.depth < wordsNeeded num.toNat blen.toNat then .next (s.raise .capacity)
      else .next ((s.makeVector num blen []).respond .ok 0 []) := by
  unfold execNew newStatus capacityStatus
  split_ifs <;> rfl

theorem execNewFromArray_eq (values : List Word) (s : State) :
    execNewFromArray values s =
      if s.cfg.depth < wordsNeeded values.length (inferWidth values) then .next (s.raise .capacity)
      else .next ((s.makeVector (BitVec.ofNat 64 values.length) (BitVec.ofNat 8 (inferWidth values))
        (loadElements (inferWidth values) 0 values [])).respond .ok 0 []) := by
  unfold execNewFromArray arrayStatus capacityStatus
  split_ifs <;> rfl

theorem answerRead_eq (s : State) (d : Word) (p : List Byte) :
    s.answerRead d p = if s.unusable then .fault .unusableState else .next (s.respond .ok d p) := rfl

theorem execDecode_ok {bytes rest : List Byte} {s : State} {v : EncodedVector}
    (h : parseVector s.cfg.depth bytes = .ok (v, rest)) :
    execDecode bytes s = .next ((s.makeVector v.num v.blen (Memory.ofWords v.words)).respond .ok 0 []) := by
  rw [execDecode, h]

theorem execDecode_error {bytes : List Byte} {s : State} {e : Status} (h : parseVector s.cfg.depth bytes = .error e) :
    execDecode bytes s = .next (s.loseVector.raise e) := by
  rw [execDecode, h]

theorem length_encoding (s : State) : s.encoding.length = 8 * s.nwords + 20 := by
  rw [State.encoding, length_wireBytes, Memory.length_words]

/-- The registers a NEWFROMARRAY of a legal length writes hold the length and the width themselves. -/
theorem toNat_arrayRegisters {values : List Word} (h : values.length < 2 ^ 64) :
    (BitVec.ofNat 64 values.length).toNat = values.length ∧
      (BitVec.ofNat 8 (inferWidth values)).toNat = inferWidth values := by
  have := (inferWidth_spec values).1
  exact ⟨by rw [BitVec.toNat_ofNat]; exact Nat.mod_eq_of_lt h, by rw [BitVec.toNat_ofNat]; exact Nat.mod_eq_of_lt (by omega)⟩

/-! ### What exec can do -/

/-- The vector an operation puts in the state fits the block, and its store is canonical. -/
structure FitsBlock (depth : Nat) (num : Word) (blen : Byte) (m : Memory) : Prop where
  width : blen.toNat ≤ 64
  fit : wordsNeeded num.toNat blen.toNat ≤ depth
  wf : Memory.wf m
  cells : ∀ p ∈ m, p.1 < wordsNeeded num.toNat blen.toNat

/-- The five ways an operation completes: it reads, it SETs, it rewrites the whole state, it fails and changes nothing, or it is
a DECODE and fails. -/
inductive Completes (i : Instr) (s : State) : State → Prop where
  | reads (d : Word) (p : List Byte) (hu : s.unusable = false)
      (hi : (∃ index, i = .get index) ∨ i = .blen ∨ i = .num ∨ i = .encode) : Completes i s (s.respond .ok d p)
  | sets (index value : Word) (hi : i = .set index value) (hu : s.unusable = false) (hlt : index.toNat < s.num.toNat) :
      Completes i s (State.respond { s with store := insertElement s.store s.blen.toNat index.toNat value } .ok 0 [])
  | makes (num : Word) (blen : Byte) (m : Memory) (hf : FitsBlock s.cfg.depth num blen m)
      (hi : (∃ n b, i = .new n b) ∨ (∃ bytes, i = .decode bytes) ∨ ∃ values, i = .newFromArray values) :
      Completes i s ((s.makeVector num blen m).respond .ok 0 [])
  | fails (e : Status) (he : e = .invalidWidth ∨ e = .capacity)
      (hi : (∃ n b, i = .new n b) ∨ ∃ values, i = .newFromArray values) : Completes i s (s.raise e)
  | loses (bytes : List Byte) (hi : i = .decode bytes) (e : Status) (he : e = .decodeError ∨ e = .capacity) :
      Completes i s (s.loseVector.raise e)

theorem answerRead_completes {i : Instr} {s t : State} {d : Word} {p : List Byte} (h : s.answerRead d p = .next t)
    (hi : (∃ index, i = .get index) ∨ i = .blen ∨ i = .num ∨ i = .encode) : Completes i s t := by
  rw [answerRead_eq] at h
  split at h
  · exact absurd h (by simp)
  · next hu =>
    simp only [Host.Outcome.next.injEq] at h
    exact h ▸ .reads d p (by simpa using hu) hi

/-- Everything a well-formed operation can answer a next state with. -/
theorem exec_completes {i : Instr} {s t : State} (hw : i.wellFormed = true) (h : exec i s = .next t) : Completes i s t := by
  cases i with
  | new num blen =>
    rw [exec, execNew_eq] at h
    split_ifs at h with h1 h2 <;> simp only [Host.Outcome.next.injEq] at h <;> subst h
    · exact .fails _ (.inl rfl) (.inl ⟨_, _, rfl⟩)
    · exact .fails _ (.inr rfl) (.inl ⟨_, _, rfl⟩)
    · exact .makes num blen [] ⟨by omega, by omega, Memory.wf_nil, by simp⟩ (.inl ⟨_, _, rfl⟩)
  | get index =>
    rw [exec, execGet_eq] at h
    split_ifs at h with h1 h2
    simp only [Host.Outcome.next.injEq] at h
    exact h ▸ .reads _ _ (by simpa using h1) (.inl ⟨_, rfl⟩)
  | set index value =>
    rw [exec, execSet_eq] at h
    split_ifs at h with h1 h2
    simp only [Host.Outcome.next.injEq] at h
    exact h ▸ .sets index value rfl (by simpa using h1) (by omega)
  | blen => exact answerRead_completes h (by simp)
  | num => exact answerRead_completes h (by simp)
  | encode => exact answerRead_completes h (by simp)
  | decode bytes =>
    rw [exec] at h
    cases hp : parseVector s.cfg.depth bytes with
    | ok r =>
      obtain ⟨v, rest⟩ := r
      rw [execDecode_ok hp] at h
      simp only [Host.Outcome.next.injEq] at h
      obtain ⟨-, hlen, hb, hn⟩ := parseVector_ok hp
      refine h ▸ .makes _ _ _ ⟨hb, by omega, Memory.wf_ofWords _, fun p hp => ?_⟩ (.inr (.inl ⟨_, rfl⟩))
      have := Memory.mem_ofWordsFrom hp
      omega
    | error e =>
      rw [execDecode_error hp] at h
      simp only [Host.Outcome.next.injEq] at h
      exact h ▸ .loses bytes rfl e (parseVector_error hp)
  | newFromArray values =>
    rw [exec, execNewFromArray_eq] at h
    have hl : values.length < 2 ^ 64 := by simpa [Instr.wellFormed] using hw
    obtain ⟨hn, hb⟩ := toNat_arrayRegisters hl
    have hw64 := (inferWidth_spec values).1
    split_ifs at h with h1 <;> simp only [Host.Outcome.next.injEq] at h <;> subst h
    · exact .fails _ (.inr rfl) (.inr ⟨_, rfl⟩)
    · refine .makes _ _ _ ⟨by omega, by rw [hn, hb]; omega, wf_loadElements Memory.wf_nil _ _ _, fun p hp => ?_⟩
        (.inr (.inr ⟨_, rfl⟩))
      rw [hn, hb]
      exact (mem_loadElements (num := values.length) (by simp) hp).resolve_left (by simp)

/-- No meaning refuses. -/
theorem exec_not_refused (i : Instr) (s : State) (r : Refusal) : exec i s ≠ .refused r := by
  cases i with
  | new num blen => rw [exec, execNew_eq]; split_ifs <;> simp
  | get index => rw [exec, execGet_eq]; split_ifs <;> simp
  | set index value => rw [exec, execSet_eq]; split_ifs <;> simp
  | blen => rw [exec, execBlen, answerRead_eq]; split_ifs <;> simp
  | num => rw [exec, execNum, answerRead_eq]; split_ifs <;> simp
  | encode => rw [exec, execEncode, answerRead_eq]; split_ifs <;> simp
  | decode bytes => rw [exec, execDecode]; split <;> simp
  | newFromArray values => rw [exec, execNewFromArray_eq]; split_ifs <;> simp

/-- No meaning looks at the queue. -/
theorem exec_pending (i : Instr) (s : State) (p : List HostInput) :
    exec i { s with pending := p } =
      match exec i s with
      | .next t => .next { t with pending := p }
      | .fault f => .fault f
      | .refused r => .refused r := by
  cases i with
  | new num blen => simp only [exec, execNew_eq]; split_ifs <;> rfl
  | get index => simp only [exec, execGet_eq]; split_ifs <;> rfl
  | set index v => simp only [exec, execSet_eq]; split_ifs <;> rfl
  | blen => simp only [exec, execBlen, answerRead_eq]; split_ifs <;> rfl
  | num => simp only [exec, execNum, answerRead_eq]; split_ifs <;> rfl
  | encode => simp only [exec, execEncode, answerRead_eq]; split_ifs <;> rfl
  | decode b => simp only [exec, execDecode]; split <;> rfl
  | newFromArray v => simp only [exec, execNewFromArray_eq]; split_ifs <;> rfl

/-! ### What a step can do -/

/-- The ways a step can go on: nothing is issued, a reset, a reserved opcode, or an operation that completes. -/
inductive StepsTo (s : State) : State → Prop where
  | idle (hp : s.pending = []) : StepsTo s s
  | reset (rest : List HostInput) (hp : s.pending = .reset :: rest) : StepsTo s (State.resetBlock { s with pending := rest })
  | badOp (r : Request) (rest : List HostInput) (op : Byte) (hp : s.pending = .command r :: rest)
      (hd : decode r = .error (.reservedOpcode op)) : StepsTo s (State.raise { s with pending := rest } .badOp)
  | command (r : Request) (rest : List HostInput) (i : Instr) (t : State) (hp : s.pending = .command r :: rest)
      (hd : decode r = .ok i) (hx : exec i { s with pending := rest } = .next t)
      (hc : Completes i { s with pending := rest } t) : StepsTo s t

theorem step_next {s t : State} (h : step s = .next t) : StepsTo s t := by
  unfold step takeInput at h
  split at h
  · next hp => simp only [Host.Outcome.next.injEq] at h; exact h ▸ .idle hp
  · next r rest hp =>
    unfold takeRequest at h
    split at h
    · next i hd => exact .command r rest i t hp hd h (exec_completes (decode_wellFormed hd) h)
    · next op hd => simp only [Host.Outcome.next.injEq] at h; exact h ▸ .badOp r rest op hp hd
    · exact absurd h (by simp)
  · next rest hp => simp only [Host.Outcome.next.injEq] at h; exact h ▸ .reset rest hp

end Sys2Proof.Machine
end

