-- ==== Sys2Proof/Laws/PerInstr.lean ====
section
/-! SUPPORT. Statements about every instruction as syntax, one lemma a constructor. -/

open Sys2Proof

/-- The opcode field of an encoded operation is the opcode of its row (30_encoding.md rules R35, R37). -/
def Sys2Proof.Laws.EncodesOpcode.Statement (i : Instr) : Prop := opField (encode i).cw = i.opcode

theorem Sys2Proof.Laws.EncodesOpcode.new (num : Word) (blen : Byte) :
    Sys2Proof.Laws.EncodesOpcode.Statement (.new num blen) := opField_commandWord _ _ _

theorem Sys2Proof.Laws.EncodesOpcode.get (index : Word) :
    Sys2Proof.Laws.EncodesOpcode.Statement (.get index) := opField_commandWord _ _ _

theorem Sys2Proof.Laws.EncodesOpcode.set (index value : Word) :
    Sys2Proof.Laws.EncodesOpcode.Statement (.set index value) := opField_commandWord _ _ _

theorem Sys2Proof.Laws.EncodesOpcode.blen : Sys2Proof.Laws.EncodesOpcode.Statement .blen := opField_commandWord _ _ _

theorem Sys2Proof.Laws.EncodesOpcode.num : Sys2Proof.Laws.EncodesOpcode.Statement .num := opField_commandWord _ _ _

theorem Sys2Proof.Laws.EncodesOpcode.encode : Sys2Proof.Laws.EncodesOpcode.Statement .encode := opField_commandWord _ _ _

theorem Sys2Proof.Laws.EncodesOpcode.decode (bytes : List Byte) :
    Sys2Proof.Laws.EncodesOpcode.Statement (.decode bytes) := opField_commandWord _ _ _

theorem Sys2Proof.Laws.EncodesOpcode.newFromArray (values : List Word) :
    Sys2Proof.Laws.EncodesOpcode.Statement (.newFromArray values) := opField_commandWord _ _ _
end

