-- ==== Sys2Proof/Tests/Slice0.lean ====
section
/-! SUPPORT. Tests whose expected results are the worked encodings of 30_encoding.md section 8 and the vectors of
95_test_vectors.md, and, for every statement with hypotheses, a witness that meets them. -/

namespace Sys2Proof.Tests

open Sys2Proof Sys2Proof.Machine

/-! ### Helpers -/

/-- A usable state with these registers and these architectural words. -/
def st (depth : Nat) (num : Word) (blen : Byte) (words : List Word) : State :=
  { State.resetWith ⟨depth⟩ with num := num, blen := blen, store := Memory.ofWords words }

/-- What a test looks at in an outcome: the last response, NUM, BLEN, the architectural words and the mark. -/
def seen : Host.Outcome State Fault Refusal → Option (Option Response × Word × Byte × List Word × Bool)
  | .next t => some (t.responses.getLast?, t.num, t.blen, Memory.words t.store t.nwords, t.unusable)
  | .fault _ => none
  | .refused _ => none

/-- Of a DECODE that fails only the response and the mark are fixed. -/
def seenFailure : Host.Outcome State Fault Refusal → Option (Option Response × Bool)
  | .next t => some (t.responses.getLast?, t.unusable)
  | .fault _ => none
  | .refused _ => none

def ok (data : Word) (payload : List Byte) : Option Response := some { status := .ok, data := data, payload := payload }

def failed (e : Status) : Option Response := some { status := e, data := 0, payload := [] }

def faultOf : Host.Outcome State Fault Refusal → Option Fault
  | .fault f => some f
  | .next _ => none
  | .refused _ => none

/-- The 28 bytes of V-ENC-2. -/
def encodingE : List Byte :=
  [0x01, 1, 0, 0, 0, 0, 0, 0, 0, 0x0B, 0x53, 0, 0, 0, 0, 0, 0, 0x02, 5, 0, 0, 0, 0, 0, 0, 0, 0x03, 3]

/-! ### WellFormed -/

theorem wellFormed_of_length {values : List Word} (h : values.length = 2 ^ 64) :
    (Instr.newFromArray values).wellFormed = false := by
  rw [Instr.wellFormed, h]
  decide

/-- An ill-formed term: one value more than R73 allows. -/
theorem test_wellFormed_refuses_too_many_values :
    (Instr.newFromArray (List.replicate (2 ^ 64) 0)).wellFormed = false :=
  wellFormed_of_length List.length_replicate

theorem test_wellFormed_accepts_no_values : (Instr.newFromArray []).wellFormed = true := by decide

/-! ### Decoding: the words of 30_encoding.md section 8 and of 95_test_vectors.md part 2.8 -/

theorem test_decode_new : decode ⟨0x0000000000000003000000000000000501, .none⟩ = .ok (.new 5 3) := by decide

theorem test_decode_get : decode ⟨0x0000000000000000000000000000000402, .none⟩ = .ok (.get 4) := by decide

theorem test_decode_set : decode ⟨0x0000000000000007000000000000000103, .none⟩ = .ok (.set 1 7) := by decide

theorem test_decode_set_all_ones :
    decode ⟨0xFFFFFFFFFFFFFFFF000000000000000003, .none⟩ = .ok (.set 0 0xFFFFFFFFFFFFFFFF) := by decide

theorem test_decode_blen : decode ⟨0x0000000000000000000000000000000004, .none⟩ = .ok .blen := by decide

theorem test_decode_num : decode ⟨0x0000000000000000000000000000000005, .none⟩ = .ok .num := by decide

theorem test_decode_encode : decode ⟨0x0000000000000000000000000000000006, .none⟩ = .ok .encode := by decide

theorem test_decode_decode :
    decode ⟨0x0000000000000000000000000000000007, .bytes [0xAA, 0xBB]⟩ = .ok (.decode [0xAA, 0xBB]) := by decide

theorem test_decode_newFromArray :
    decode ⟨0x0000000000000000000000000000000008, .words [3, 1, 4]⟩ = .ok (.newFromArray [3, 1, 4]) := by decide

/-- V-NEW-12: `B[63:8]` is ignored. -/
theorem test_decode_new_ignores_high_B : decode ⟨0x0000000000000103000000000000000501, .none⟩ = .ok (.new 5 3) := by decide

/-- V-CMD-4 and V-CMD-5: unused fields are ignored. -/
theorem test_decode_ignores_unused_fields :
    decode ⟨0xDEADBEEFDEADBEEF0123456789ABCDEF04, .none⟩ = .ok .blen ∧
    decode ⟨0x1234567812345678000000000000000102, .none⟩ = .ok (.get 1) := by decide

/-- V-CMD-1, V-CMD-2, V-CMD-3: reserved opcodes. -/
theorem test_decode_reserved :
    decode ⟨0x0000000000000002000000000000000109, .none⟩ = .error (.reservedOpcode 0x09) ∧
    decode ⟨0, .none⟩ = .error (.reservedOpcode 0x00) ∧
    decode ⟨0xFFFFFFFFFFFFFFFFFFFFFFFFFFFFFFFFFF, .none⟩ = .error (.reservedOpcode 0xFF) := by decide

/-- The words of section 8, from the encoder. -/
theorem test_encode_words :
    (encode (.new 5 3)).cw = 0x0000000000000003000000000000000501 ∧
    (encode (.set 1 7)).cw = 0x0000000000000007000000000000000103 ∧
    (encode (.get 4)).cw = 0x0000000000000000000000000000000402 := by decide

/-- The table's words: bit 0 is the low bit of the opcode. -/
theorem test_decodeTableWord :
    decodeTableWord 136 0x0000000000000007000000000000000103 = some (.set 1 7) ∧
    decodeTableWord 8 0x06 = some .encode ∧ decodeTableWord 8 0x09 = none := by decide

/-- A table word runs as the first command after reset: V-ACC-1. -/
theorem test_first_step_after_reset :
    seen (step (State.reset.withFetchWord 136 0x04)) = some (ok 0 [], 0, 0, [], false) := by decide

/-- The status numbers of R40. -/
theorem test_status_numbers :
    [Status.ok, .invalidWidth, .encodingError, .decodeError, .capacity, .badOp].map Status.code = [0, 1, 2, 3, 4, 5] := by
  decide

/-! ### The port -/

/-- V-CMD-3: BAD_OP, state unchanged. -/
theorem test_badOp :
    seen (step { st 1024 5 3 [0x2AF8] with pending := [.command ⟨0xFFFFFFFFFFFFFFFFFFFFFFFFFFFFFFFFFF, .none⟩] }) =
      some (failed .badOp, 5, 3, [0x2AF8], false) := by decide

/-- 10_state.md rule R16: reset, with the mark of R19 set before. -/
theorem test_reset_clears_the_mark :
    step { st 8 5 3 [0x2AF8] with unusable := true, pending := [.reset] } = .next (State.resetWith ⟨8⟩) := by rfl

/-! ### GET -/

/-- V-GET-4: neighbours across a word boundary, the middle one straddling. -/
theorem test_get_straddle :
    seen (exec (.get 12) (st 1024 14 5 [0xFA80000000000000, 0x15])) =
      some (ok 31 [], 14, 5, [0xFA80000000000000, 0x15], false) := by decide

/-- V-GET-12 and V-GET-13: out of contract, at BLEN = 0 too. -/
theorem test_get_out_of_contract :
    faultOf (exec (.get 5) (st 1024 5 3 [0x2AF8])) = some .getOutOfContract ∧
    faultOf (exec (.get 0) (st 1024 0 0 [])) = some .getOutOfContract := by decide

/-! ### SET -/

/-- V-SET-14: OR into a non-zero element, the tail bit stays. -/
theorem test_set_ors :
    seen (exec (.set 4 2) (st 1024 5 3 [0x800000000000530B])) =
      some (ok 0 [], 5, 3, [0x800000000000730B], false) := by decide

/-- V-SET-3: one bit into the low word, six into the high one; V-SET-6: the value is masked. -/
theorem test_set_straddle_and_mask :
    seen (exec (.set 9 0x55) (st 1024 10 7 [0, 0])) =
      some (ok 0 [], 10, 7, [0x8000000000000000, 0x2A], false) ∧
    seen (exec (.set 0 0xFF) (st 1024 5 3 [0])) = some (ok 0 [], 5, 3, [0x7], false) := ⟨by decide, by decide⟩

/-! ### NEW, NEWFROMARRAY, BLEN, NUM -/

/-- V-NEW-11: the product is exact; V-NEW-6: the width is tested first. -/
theorem test_new_checks :
    seen (exec (.new 0x0400000000000000 64) (st 1024 5 3 [0x2AF8])) = some (failed .capacity, 5, 3, [0x2AF8], false) ∧
    seen (exec (.new 0xFFFFFFFFFFFFFFFF 255) (st 1024 5 3 [0x2AF8])) =
      some (failed .invalidWidth, 5, 3, [0x2AF8], false) := ⟨by decide, by decide⟩

/-- V-NEW-3: 65 bits need two words, all zero. -/
theorem test_new_zeroes :
    seen (exec (.new 13 5) (st 1024 5 3 [0x2AF8])) = some (ok 0 [], 13, 5, [0, 0], false) := by decide

/-- V-NFA-10: the widest value is the last one. -/
theorem test_newFromArray :
    seen (exec (.newFromArray [255, 256]) (st 1024 5 3 [0x2AF8])) = some (ok 0 [], 2, 9, [0x200FF], false) := by decide

/-- V-NFA-1: `dim` is 2^64; V-NFA-13 in small: two words do not fit one. -/
theorem test_newFromArray_extremes :
    seen (exec (.newFromArray [0xFFFFFFFFFFFFFFFF]) (st 1 5 3 [0x2AF8])) =
      some (ok 0 [], 1, 64, [0xFFFFFFFFFFFFFFFF], false) ∧
    seen (exec (.newFromArray [0xFFFFFFFFFFFFFFFF, 0]) (st 1 5 3 [0x2AF8])) =
      some (failed .capacity, 5, 3, [0x2AF8], false) := ⟨by decide, by decide⟩

/-- V-ACC-4 -/
theorem test_blen : seen (exec .blen (st 1024 1 64 [0])) = some (ok 64 [], 1, 64, [0], false) := by decide

/-- V-ACC-3 -/
theorem test_num :
    seen (exec .num (st 1024 0xFFFFFFFFFFFFFFFF 0 [])) =
      some (ok 0xFFFFFFFFFFFFFFFF [], 0xFFFFFFFFFFFFFFFF, 0, [], false) := by decide

/-! ### ENCODE and DECODE -/

/-- V-ENC-6: the tail bit is encoded. -/
theorem test_encode_tail :
    (seen (exec .encode (st 1024 5 3 [0x800000000000530B]))).map Prod.fst =
      some (ok 28 [0x01, 1, 0, 0, 0, 0, 0, 0, 0, 0x0B, 0x53, 0, 0, 0, 0, 0, 0x80, 0x02, 5, 0, 0, 0, 0, 0, 0, 0, 0x03, 3]) := by
  decide

/-- V-ENC-3: two words. -/
theorem test_encode_two_words :
    (seen (exec .encode (st 1024 13 5 [0x7000000000000000, 1]))).map Prod.fst =
      some (ok 36 [0x01, 2, 0, 0, 0, 0, 0, 0, 0, 0, 0, 0, 0, 0, 0, 0, 0x70, 1, 0, 0, 0, 0, 0, 0, 0,
        0x02, 0x0D, 0, 0, 0, 0, 0, 0, 0, 0x03, 5]) := by
  decide

/-- V-DEC-2: trailing bytes are ignored. -/
theorem test_decode_ok :
    seen (exec (.decode (encodingE ++ [0xAA, 0xBB])) (st 1024 0 0 [])) =
      some (ok 0 [], 5, 3, [0x530B], false) := by decide

/-- V-DEC-19 and V-DEC-20: the count is tested against DEPTH before the words are looked for. -/
theorem test_decode_fails :
    seenFailure (exec (.decode (encodingE.set 1 5)) (st 4 0 0 [])) = some (failed .capacity, true) ∧
    seenFailure (exec (.decode (encodingE.set 1 5)) (st 8 0 0 [])) = some (failed .decodeError, true) := by decide

/-- P5's remark on step 8: a GET after a failed DECODE is a fault; step 9: NEW clears the mark. -/
theorem test_unusable_until_rewritten :
    faultOf (exec (.get 1) { st 1024 5 3 [0x38] with unusable := true }) = some .unusableState ∧
    seen (exec (.new 5 3) { st 1024 5 3 [0x38] with unusable := true }) = some (ok 0 [], 5, 3, [0], false) := by decide

/-! ### Witnesses: for each statement with hypotheses, values that meet them all, one group a clause -/

/-- An empty vector of width 0; one word; a straddle; whole words; a word of tail bits; a full block. -/
theorem usable_width0 : (st 1024 3 0 []).Usable := ⟨⟨by decide, by decide, by decide⟩, rfl⟩

theorem usable_oneWord : (st 1024 5 3 [0x2AF8]).Usable := ⟨⟨by decide, by decide, by decide⟩, rfl⟩

theorem usable_straddle : (st 1024 14 5 [0xFA80000000000000, 0x15]).Usable := ⟨⟨by decide, by decide, by decide⟩, rfl⟩

theorem usable_full : (st 3 3 64 [1, 0, 0x0123456789ABCDEF]).Usable := ⟨⟨by decide, by decide, by decide⟩, rfl⟩

theorem usable_exactFit : (st 1024 9 8 [0xAB00000000000000, 0xCD]).Usable := ⟨⟨by decide, by decide, by decide⟩, rfl⟩

theorem witness_DecodeOfEncodeIsIdentity :
    (Instr.new 0xFFFFFFFFFFFFFFFF 0xFF).wellFormed = true ∧ (Instr.newFromArray [0, 5]).wellFormed = true := by decide

theorem witness_PayloadIsTheOperandOfDecodeAndNewFromArray :
    opField 0x07 = 7 ∧ opField 0x08 = 8 ∧ [(5 : Word)].length < 2 ^ 64 ∧
    opField 0x06 ≠ 7 ∧ opField 0x06 ≠ 8 ∧ opField 0x09 ≠ 7 ∧ opField 0x09 ≠ 8 := by decide

theorem witness_ReservedOpcodesAnswerBadOp :
    (opField 0x100).toNat = 0 ∧ 9 ≤ (opField 0x109).toNat ∧ 9 ≤ (opField 0xFF).toNat ∧
    State.pending { st 8 5 3 [0x2AF8] with pending := [.command ⟨0x109, .none⟩, .reset] } =
      .command ⟨0x109, .none⟩ :: [.reset] := by decide

theorem witness_StepRunsTheDecodedCommand :
    State.pending { st 8 5 3 [0x2AF8] with pending := [.command ⟨0x102, .none⟩] } = .command ⟨0x102, .none⟩ :: [] ∧
    decode ⟨0x102, .none⟩ = .ok (.get 1) := by decide

theorem witness_StepWithoutACommand :
    (st 8 5 3 [0x2AF8]).pending = [] ∧
    State.pending { st 8 5 3 [0x2AF8] with pending := [.reset, .reset] } = .reset :: [.reset] := by decide

/-- A GET, a successful ENCODE and a failed NEW. -/
theorem witness_EveryRequestGetsOneResponseInOrder :
    (∃ t, step { st 8 5 3 [0x2AF8] with pending := [.command ⟨0x102, .none⟩] } = .next t) ∧
    (∃ t, step { st 8 5 3 [0x2AF8] with pending := [.command ⟨0x06, .none⟩, .reset] } = .next t) ∧
    ∃ t, step { st 8 5 3 [0x2AF8] with pending := [.command (encode (.new 5 65))] } = .next t :=
  ⟨⟨_, rfl⟩, ⟨_, rfl⟩, ⟨_, rfl⟩⟩

theorem witness_QueuedCommandsRunInOrder :
    ∀ i ∈ [Instr.new 5 3, .set 1 7, .get 1, .newFromArray [1], .get 9, .num], i.wellFormed = true := by decide

theorem refused_of_length {values : List Word} (h : values.length = 2 ^ 64) :
    step { State.reset with pending := [.command ⟨0x08, .words values⟩] } = .refused .payloadTooLong := by
  have hd : decode ⟨0x08, .words values⟩ = .error .payloadTooLong := if_neg (by simp [wordPayload, wellFormed_of_length h])
  simp only [step, takeInput, takeRequest, hd]

/-- A payload one value too long is the one request that is refused. -/
theorem witness_NoLegalRequestIsRefused :
    step { State.reset with pending := [.command ⟨0x08, .words (List.replicate (2 ^ 64) 0)⟩] } =
      .refused .payloadTooLong :=
  refused_of_length List.length_replicate

theorem witness_CommandsCompleteExactlyInContract :
    InContract (.get 4) (st 1024 5 3 [0x2AF8]) ∧ ¬ InContract (.get 5) (st 1024 5 3 [0x2AF8]) ∧
    InContract (.set 0 1) (st 1024 5 3 [0x2AF8]) ∧ ¬ InContract (.set 0 1) (st 1024 0 0 []) ∧
    ¬ InContract .num { st 1024 5 3 [] with unusable := true } := by
  refine ⟨⟨rfl, by decide⟩, fun h => absurd h.2 (by decide), ⟨rfl, by decide⟩, fun h => absurd h.2 (by decide), ?_⟩
  exact (by decide : ¬ (true = false))

theorem witness_OutOfContractCommandsFault :
    (st 1024 5 3 [0x2AF8]).unusable = false ∧ (st 1024 5 3 [0x2AF8]).num.toNat ≤ (5 : Word).toNat ∧
    State.unusable { st 1024 5 3 [] with unusable := true } = true := by decide

theorem witness_InvariantHoldsAfterReset : Config.ok ⟨1⟩ ∧ Config.ok ⟨2 ^ 57⟩ := by decide

/-- A SET that straddles, and a DECODE that fails. -/
theorem witness_InvariantKeptByEveryStep :
    State.Inv { st 1024 13 5 [0, 0] with pending := [.command (encode (.set 12 0x17))] } ∧
    (∃ t, step { st 1024 13 5 [0, 0] with pending := [.command (encode (.set 12 0x17))] } = .next t) ∧
    ∃ t, step { st 1024 13 5 [0, 0] with pending := [.command (encode (.decode []))] } = .next t :=
  ⟨⟨by decide, by decide, by decide⟩, ⟨_, rfl⟩, ⟨_, rfl⟩⟩

/-- From reset, NEW 1, 64 on a block of one word: a usable state at the bounds of both invariants. -/
theorem witness_ReachableStatesAreVectors :
    Config.ok ⟨1⟩ ∧ ∃ s, Reachable ⟨1⟩ s ∧ s.unusable = false ∧ s.num = 1 ∧ s.blen = 64 :=
  ⟨by decide, _, .step (.issue (.command (encode (.new 1 64))) .reset) rfl, rfl, rfl, rfl⟩

/-- NEW, NEWFROMARRAY and a reset each change NUM; a successful DECODE too. -/
theorem witness_OnlyRewritersChangeNumAndBlen :
    let s (x : HostInput) : State := { st 1024 5 3 [0x2AF8] with pending := [x] }
    (∃ t, step (s (.command (encode (.new 6 3)))) = .next t ∧ t.num ≠ 5) ∧
    (∃ t, step (s (.command (encode (.newFromArray [1])))) = .next t ∧ t.blen ≠ 3) ∧
    (∃ t, step (s (.command (encode (.decode (encodingE.set 18 0x15))))) = .next t ∧ t.num ≠ 5) ∧
    ∃ t, step (s .reset) = .next t ∧ t.num ≠ 5 :=
  ⟨⟨_, rfl, by decide⟩, ⟨_, rfl, by decide⟩, ⟨_, rfl, by decide⟩, ⟨_, rfl, by decide⟩⟩

/-- Widths 0 and 64, one word, a straddle. -/
theorem witness_GetReturnsTheElementsBits :
    ((st 1024 3 0 []).Usable ∧ (2 : Word).toNat < (st 1024 3 0 []).num.toNat) ∧
    ((st 1024 14 5 [0xFA80000000000000, 0x15]).Usable ∧
      (12 : Word).toNat < (st 1024 14 5 [0xFA80000000000000, 0x15]).num.toNat) ∧
    (st 3 3 64 [1, 0, 0x0123456789ABCDEF]).Usable ∧
      (2 : Word).toNat < (st 3 3 64 [1, 0, 0x0123456789ABCDEF]).num.toNat :=
  ⟨⟨usable_width0, by decide⟩, ⟨usable_straddle, by decide⟩, usable_full, by decide⟩

/-- One group for each of the three corners. -/
theorem witness_GetCornerCases :
    ((st 1024 3 0 []).Usable ∧ (2 : Word).toNat < 3 ∧ (st 1024 3 0 []).blen.toNat = 0) ∧
    ((st 3 3 64 [1, 0, 0x0123456789ABCDEF]).Usable ∧ (2 : Word).toNat < 3 ∧
      (st 3 3 64 [1, 0, 0x0123456789ABCDEF]).blen.toNat = 64) ∧
    (st 1024 9 8 [0xAB00000000000000, 0xCD]).Usable ∧ (7 : Word).toNat < 9 ∧
      (st 1024 9 8 [0xAB00000000000000, 0xCD]).blen.toNat ≠ 0 ∧
      (7 : Word).toNat * (st 1024 9 8 [0xAB00000000000000, 0xCD]).blen.toNat % 64 +
        (st 1024 9 8 [0xAB00000000000000, 0xCD]).blen.toNat = 64 :=
  ⟨⟨usable_width0, by decide, by decide⟩, ⟨usable_full, by decide, by decide⟩, usable_exactFit, by decide, by decide, by decide⟩

/-- A straddle, where `hi` is the next word, and an element that ends at bit 64, where it is anything. -/
theorem witness_GetIsOne128BitShift :
    ((st 1024 14 5 [0xFA80000000000000, 0x15]).Usable ∧ (12 : Word).toNat < 14 ∧ 64 < 12 * 5 % 64 + 5 ∧
      (0x15 : Word) = Memory.read (st 1024 14 5 [0xFA80000000000000, 0x15]).store (12 * 5 / 64 + 1)) ∧
    (st 1024 9 8 [0xAB00000000000000, 0xCD]).Usable ∧ (7 : Word).toNat < 9 ∧ ¬ 64 < 7 * 8 % 64 + 8 :=
  ⟨⟨usable_straddle, by decide, by decide, by decide⟩, usable_exactFit, by decide, by decide⟩

theorem witness_ReadingCommandsChangeNothing :
    (∃ t, exec (.get 4) (st 1024 5 3 [0x2AF8]) = .next t) ∧ (∃ t, exec .blen (st 1024 5 3 [0x2AF8]) = .next t) ∧
    (∃ t, exec .num (st 1024 5 3 [0x2AF8]) = .next t) ∧ ∃ t, exec .encode (st 1024 5 3 [0x2AF8]) = .next t :=
  ⟨⟨_, rfl⟩, ⟨_, rfl⟩, ⟨_, rfl⟩, ⟨_, rfl⟩⟩

/-- The last element of a full block, a straddle into the last word, and width 0; a store that differs only beyond nwords. -/
theorem witness_InContractElementLiesInTheStore :
    ((st 3 3 64 [1, 0, 0x0123456789ABCDEF]).Usable ∧ (2 : Word).toNat < 3 ∧
      (st 3 3 64 [1, 0, 0x0123456789ABCDEF]).blen.toNat ≠ 0) ∧
    ((st 1024 14 5 [0xFA80000000000000, 0x15]).Usable ∧ (12 : Word).toNat < 14 ∧ straddles 5 12 = true ∧
      ∀ a, a < (st 1024 14 5 [0xFA80000000000000, 0x15]).nwords →
        Memory.read (Memory.ofWords [0xFA80000000000000, 0x15, 7]) a =
          Memory.read (st 1024 14 5 [0xFA80000000000000, 0x15]).store a) ∧
    (st 1024 3 0 []).Usable ∧ (2 : Word).toNat < 3 :=
  ⟨⟨usable_full, by decide, by decide⟩, ⟨usable_straddle, by decide, by decide, by decide⟩, usable_width0, by decide⟩

/-- Offset 63 with a straddle; width 64; the widest masked width. -/
theorem witness_ShiftAmountsStayBelow64 :
    (1 ≤ 7 ∧ 7 ≤ 64 ∧ straddles 7 9 = true) ∧ (1 ≤ 64 ∧ 64 ≤ 64) ∧ 1 ≤ 63 ∧ 63 < 64 ∧ straddles 63 1 = true := by decide

/-- For the statements about an in-contract SET: widths 0 and 64, a straddle, the end of a word; two elements of one vector. -/
theorem witness_SetOrsTheElementsBits :
    ((st 1024 3 0 []).Usable ∧ (1 : Word).toNat < 3) ∧
    ((st 1024 14 5 [0xFA80000000000000, 0x15]).Usable ∧ (12 : Word).toNat < 14) ∧
    (st 3 3 64 [1, 0, 0x0123456789ABCDEF]).Usable ∧ (2 : Word).toNat < 3 :=
  ⟨⟨usable_width0, by decide⟩, ⟨usable_straddle, by decide⟩, usable_full, by decide⟩

theorem witness_SetStoresOnlyToItsWords :
    ((st 1024 3 0 []).Usable ∧ (1 : Word).toNat < 3 ∧ (st 1024 3 0 []).blen.toNat = 0) ∧
    ((st 1024 14 5 [0xFA80000000000000, 0x15]).Usable ∧ (12 : Word).toNat < 14 ∧ straddles 5 12 = true ∧
      (2 : Nat) ≠ blockOf 5 12 ∧ (2 : Nat) ≠ blockOf 5 12 + 1) ∧
    (st 1024 9 8 [0xAB00000000000000, 0xCD]).Usable ∧ (7 : Word).toNat < 9 ∧ straddles 8 7 = false ∧ (1 : Nat) ≠ blockOf 8 7 :=
  ⟨⟨usable_width0, by decide, by decide⟩, ⟨usable_straddle, by decide, by decide, by decide, by decide⟩, usable_exactFit,
    by decide, by decide, by decide⟩

theorem witness_GetAfterSetReturnsTheOr :
    (st 1024 5 3 [0x2AF8]).Usable ∧ (4 : Word).toNat < 5 ∧ (3 : Word) ≠ 4 ∧ (3 : Word).toNat < 5 :=
  ⟨usable_oneWord, by decide, by decide, by decide⟩

theorem witness_SetIsOne128BitMerge :
    (st 1024 14 5 [0xFA80000000000000, 0x15]).Usable ∧ (12 : Word).toNat < 14 ∧
    BitVec.extractLsb' 64 64 (BitVec.ofNat 128 (0x17 % 2 ^ 5 * 2 ^ (12 * 5 % 64))) ≠ (0 : Word) :=
  ⟨usable_straddle, by decide, by decide⟩

/-- Two neighbours that share a word, and the same index twice. -/
theorem witness_SetsCommute :
    ((st 1024 14 5 [0xFA80000000000000, 0x15]).Usable ∧ (11 : Word).toNat < 14 ∧ (12 : Word).toNat < 14) ∧
    ∃ i j : Word, i = j ∧ i.toNat < (st 1024 14 5 [0xFA80000000000000, 0x15]).num.toNat ∧
      j.toNat < (st 1024 14 5 [0xFA80000000000000, 0x15]).num.toNat :=
  ⟨⟨usable_straddle, by decide, by decide⟩, 12, 12, rfl, by decide, by decide⟩

theorem witness_SetTwiceStoresAsOnce :
    (st 1024 14 5 [0xFA80000000000000, 0x15]).Usable ∧ (13 : Word).toNat < 14 := ⟨usable_straddle, by decide⟩

theorem witness_StoreOnlyGainsOnes :
    (st 1024 5 3 [0x2AF8]).Usable ∧
    (∀ i ∈ [Instr.set 1 5, .get 1, .blen, .num, .encode], (∃ index value, i = .set index value) ∨ (∃ index, i = .get index) ∨
      i = .blen ∨ i = .num ∨ i = .encode) ∧
    (∃ t, execAll [.set 1 5, .get 1, .blen, .num, .encode] (st 1024 5 3 [0x2AF8]) = .next t) ∧ (4 : Word).toNat < 5 :=
  ⟨usable_oneWord, by simp, ⟨_, rfl⟩, by decide⟩

/-- Each check at its boundary: width 64 and 65, DEPTH words and one more. -/
theorem witness_NewMakesAZeroVectorOrChangesNothing :
    64 < (65 : Byte).toNat ∧
    ((64 : Byte).toNat ≤ 64 ∧ (st 4 5 3 [0x2AF8]).cfg.depth < ((5 : Word).toNat * (64 : Byte).toNat + 63) / 64) ∧
    (64 : Byte).toNat ≤ 64 ∧ ((4 : Word).toNat * (64 : Byte).toNat + 63) / 64 ≤ (st 4 5 3 [0x2AF8]).cfg.depth := by decide

theorem witness_GetAfterNewReadsZero :
    ∃ t, exec (.new 13 5) (st 1024 5 3 [0x2AF8]) = .next t ∧
      t.responses = (st 1024 5 3 [0x2AF8]).responses ++ [{ status := .ok, data := 0, payload := [] }] ∧
      1 < t.nwords ∧ (12 : Word).toNat < (13 : Word).toNat :=
  ⟨_, rfl, rfl, by decide, by decide⟩

/-- V-SET-13's three SETs, on a vector with an element that is not set. -/
theorem witness_ReadBackLaw :
    (st 8 5 3 [0x2AF8]).cfg.ok ∧ (5 : Byte).toNat ≤ 64 ∧
    ((14 : Word).toNat * (5 : Byte).toNat + 63) / 64 ≤ (st 8 5 3 [0x2AF8]).cfg.depth ∧
    ([(12, 0x1F), (11, 0x15), (13, 0x0A)].map Prod.fst : List Word).Nodup ∧
    (∀ p ∈ ([(12, 0x1F), (11, 0x15), (13, 0x0A)] : List (Word × Word)), p.1.toNat < (14 : Word).toNat) ∧
    (0 : Word) ∉ ([(12, 0x1F), (11, 0x15), (13, 0x0A)].map Prod.fst : List Word) :=
  ⟨⟨by decide, by decide⟩, by decide, by decide, by decide, by simp, by decide⟩

theorem witness_DimIsOneMoreThanTheGreatestValue :
    ([0xFFFFFFFFFFFFFFFF] : List Word) ≠ [] ∧ ([5, 3, 9] : List Word).Perm [9, 5, 3] :=
  ⟨List.cons_ne_nil _ _, List.perm_append_comm (l₁ := [5, 3]) (l₂ := [9])⟩

/-- V-NFA-3 (width 0) and V-NFA-7 (three values, the greatest 9, width 4). -/
theorem witness_NewFromArrayHoldsItsValues :
    (st 8 5 3 [0x2AF8]).cfg.ok ∧ ([5, 3, 9] : List Word).length < 2 ^ 64 ∧
    (∀ v ∈ ([5, 3, 9] : List Word), v.toNat < 2 ^ 4) ∧ (∃ v ∈ ([5, 3, 9] : List Word), 2 ^ (4 - 1) ≤ v.toNat) ∧
    (([5, 3, 9] : List Word).length * 4 + 63) / 64 ≤ (st 8 5 3 [0x2AF8]).cfg.depth ∧
    (∀ v ∈ ([0] : List Word), v.toNat < 2 ^ 0) :=
  ⟨⟨by decide, by decide⟩, by decide, by simp, by simp, by decide, by simp⟩

/-- V-NFA-13 in small: two 64-bit values and one word. -/
theorem witness_NewFromArrayTooLargeChangesNothing :
    (st 1 5 3 [0x2AF8]).cfg.depth <
      (([0xFFFFFFFFFFFFFFFF, 0] : List Word).length * inferWidth [0xFFFFFFFFFFFFFFFF, 0] + 63) / 64 := by
  rw [show inferWidth [0xFFFFFFFFFFFFFFFF, 0] = 64 by decide]
  decide

theorem witness_NewFromArrayIsNewThenSets :
    (st 1024 5 3 [0x2AF8]).cfg.ok ∧ ([255, 256] : List Word).length < 2 ^ 64 ∧
    (([255, 256] : List Word).length * inferWidth [255, 256] + 63) / 64 ≤ (st 1024 5 3 [0x2AF8]).cfg.depth := by decide

theorem witness_AccessorsReadTheRegisters : (st 3 3 64 [1, 0, 0x0123456789ABCDEF]).Usable := usable_full

/-- An empty vector, and one of three words. -/
theorem witness_EncodeLayout : (st 1024 3 0 []).Usable ∧ (st 3 3 64 [1, 0, 0x0123456789ABCDEF]).Usable :=
  ⟨usable_width0, usable_full⟩

theorem witness_EncodeIsInjective :
    (st 1024 5 3 [0x2AF8]).Usable ∧ (st 8 5 3 [0x2AF8]).Usable ∧
    ∃ d out, exec .encode (st 1024 5 3 [0x2AF8]) = .next ((st 1024 5 3 [0x2AF8]).respond .ok d out) ∧
      exec .encode (st 8 5 3 [0x2AF8]) = .next ((st 8 5 3 [0x2AF8]).respond .ok d out) :=
  ⟨usable_oneWord, ⟨⟨by decide, by decide, by decide⟩, rfl⟩, _, _, rfl, rfl⟩

theorem witness_NothingAnswersEncodingError :
    ∃ t, step { st 8 5 3 [0x2AF8] with pending := [.command (encode (.new 5 65))] } = .next t ∧
      t.responses = (st 8 5 3 [0x2AF8]).responses ++ [{ status := .invalidWidth, data := 0, payload := [] }] :=
  ⟨_, rfl, rfl⟩

/-- Into a block whose DEPTH is exactly the vector's word count, its own state unspecified. -/
theorem witness_DecodeOfEncodeRestoresTheVector :
    (st 1024 14 5 [0xFA80000000000000, 0x15]).Usable ∧ Config.ok ⟨2⟩ ∧
    (st 1024 14 5 [0xFA80000000000000, 0x15]).nwords ≤ (State.cfg { st 2 0 0 [] with unusable := true }).depth :=
  ⟨usable_straddle, by decide, by decide⟩

theorem witness_AcceptedPayloadIsTheCanonicalEncoding :
    Config.ok ⟨1⟩ ∧ ∃ t, exec (.decode (encodingE ++ [0xAA])) (st 1 0 0 []) = .next t ∧
      t.responses = (st 1 0 0 []).responses ++ [{ status := .ok, data := 0, payload := [] }] :=
  ⟨by decide, _, rfl, rfl⟩

/-- V-DEC-15 (width 65), V-DEC-17 (66 bits, one word) and V-DEC-18 (63 bits, one word). -/
theorem witness_DecodeChecksWidthAndCount :
    (st 1 0 0 []).cfg.ok ∧ [(0x530B : Word)].length ≤ (st 1 0 0 []).cfg.depth ∧ 64 < (65 : Byte).toNat ∧
    [(0x530B : Word)].length ≠ ((22 : Word).toNat * (3 : Byte).toNat + 63) / 64 ∧
    ((3 : Byte).toNat ≤ 64 ∧ [(0x530B : Word)].length = ((21 : Word).toNat * (3 : Byte).toNat + 63) / 64) := by decide

/-- A wrong tag, seven bytes of a number, a count of DEPTH and of DEPTH + 1, one byte of a word short. -/
theorem witness_DecodeChecksInStreamOrder :
    (st 4 0 0 []).cfg.ok ∧ (0x02 : Byte) ≠ 0x01 ∧ ([1, 2, 3, 4, 5, 6, 7] : List Byte).length < 8 ∧
    (st 4 0 0 []).cfg.depth < (5 : Word).toNat ∧
    ((1 : Word).toNat ≤ (st 4 0 0 []).cfg.depth ∧ ([1, 2, 3, 4, 5, 6, 7] : List Byte).length < 8 * (1 : Word).toNat) ∧
    ([1, 2, 3, 4] : List Word).length = (4 : Word).toNat ∧ (4 : Word).toNat ≤ (st 4 0 0 []).cfg.depth ∧
    (0x03 : Byte) ≠ 0x02 ∧ (0x02 : Byte) ≠ 0x03 := by decide

theorem witness_DecodeDependsOnPayloadAndDepthAlone :
    (st 4 0 0 []).cfg.depth = (State.cfg { st 4 5 3 [0x2AF8] with unusable := true }).depth := rfl

/-- A failed NEW, and a failed DECODE. -/
theorem witness_FailedCommandsChangeNothing :
    (∃ t, exec (.new 5 65) (st 8 5 3 [0x2AF8]) = .next t ∧
      t.responses = (st 8 5 3 [0x2AF8]).responses ++ [{ status := .invalidWidth, data := 0, payload := [] }]) ∧
    ∃ t, exec (.decode []) (st 8 5 3 [0x2AF8]) = .next t ∧
      t.responses = (st 8 5 3 [0x2AF8]).responses ++ [{ status := .decodeError, data := 0, payload := [] }] :=
  ⟨⟨_, rfl, rfl⟩, _, rfl, rfl⟩

/-- NEW that answers OK, and NEW that fails, in an unspecified state. -/
theorem witness_UnspecifiedUntilRewritten :
    (∃ t, exec (.new 5 3) { st 8 5 3 [] with unusable := true } = .next t) ∧
    ∃ t, exec (.new 5 65) { st 8 5 3 [] with unusable := true } = .next t :=
  ⟨⟨_, rfl⟩, _, rfl⟩

/-- A sequence that stops, one that ends in a usable state, and one that does not. -/
theorem witness_NothingDependsOnTheUnspecifiedState :
    State.unusable { st 8 5 3 [] with unusable := true } = true ∧
    execAll [.num] { st 8 5 3 [] with unusable := true } = .fault .unusableState ∧
    (∃ t, execAll [.new 5 65, .decode encodingE] { st 8 5 3 [] with unusable := true } = .next t ∧ t.unusable = false) ∧
    ∃ t, execAll [.decode [], .new 5 65] { st 8 5 3 [] with unusable := true } = .next t ∧ t.unusable = true :=
  ⟨rfl, rfl, ⟨_, rfl, rfl⟩, _, rfl, rfl⟩

end Sys2Proof.Tests
end

section
/-! SUPPORT. Which operations can change NUM or BLEN (10_state.md rules R11, R12). -/

namespace Sys2Proof.Machine

open Sys2Proof

/-- Only the two ways of completing that rewrite the whole vector touch the registers, and NEW, DECODE and NEWFROMARRAY alone
complete so. -/
theorem Completes.registers_eq_or_rewriter {i : Instr} {s t : State} (h : Completes i s t) :
    (t.num = s.num ∧ t.blen = s.blen) ∨ i.opcode = 1 ∨ i.opcode = 7 ∨ i.opcode = 8 := by
  cases h with
  | reads d p hu hi => exact .inl ⟨rfl, rfl⟩
  | sets index value hi hu hlt => exact .inl ⟨rfl, rfl⟩
  | fails e he hi => exact .inl ⟨rfl, rfl⟩
  | loses bytes hi e he => subst hi; exact .inr (.inr (.inl rfl))
  | makes num blen m hf hi =>
    obtain ⟨n, b, rfl⟩ | ⟨bytes, rfl⟩ | ⟨values, rfl⟩ := hi
    · exact .inr (.inl rfl)
    · exact .inr (.inr (.inl rfl))
    · exact .inr (.inr (.inr rfl))

/-- Settles O17: of the ways a step can go on, the idle step and BAD_OP keep both registers, a reset is named by the
statement, and a command that changes one has a rewriter's opcode. -/
theorem onlyRewritersChangeNumAndBlen : Obligations.OnlyRewritersChangeNumAndBlen := by
  intro s t h hchange
  have hne : ¬ (t.num = s.num ∧ t.blen = s.blen) := not_and_or.mpr hchange
  cases step_next h with
  | idle hp => exact absurd ⟨rfl, rfl⟩ hne
  | reset rest hp => exact .inl ⟨rest, hp⟩
  | badOp r rest op hp hd => exact absurd ⟨rfl, rfl⟩ hne
  | command r rest i t hp hd hx hc =>
    have hop := hc.registers_eq_or_rewriter.resolve_left hne
    exact .inr ⟨r, rest, hp, opField_of_decode hd ▸ hop⟩

end Sys2Proof.Machine
end

section
/-! SUPPORT. The invariant (10_state.md rule R14): what keeps it, from the updates of State up to the step, and that it
holds of every reachable state. -/

namespace Sys2Proof.Machine

open Sys2Proof

/-! ### The invariant and the updates of State -/

/-- The invariant does not read the port. -/
theorem State.Inv.with_pending {s : State} (h : s.Inv) (p : List HostInput) : State.Inv { s with pending := p } :=
  ⟨h.cfgOk, h.storeWf, h.vector⟩

theorem State.Inv.respond {s : State} (h : s.Inv) (st : Status) (d : Word) (p : List Byte) : (s.respond st d p).Inv :=
  ⟨h.cfgOk, h.storeWf, h.vector⟩

theorem State.Inv.raise {s : State} (h : s.Inv) (st : Status) : (s.raise st).Inv := h.respond st 0 []

/-- A vector that fits the block gives the invariant, whatever the state was before. -/
theorem State.inv_makeVector {s : State} (hc : s.cfg.ok) {num : Word} {blen : Byte} {m : Memory}
    (hf : FitsBlock s.cfg.depth num blen m) : (s.makeVector num blen m).Inv :=
  ⟨hc, hf.wf, fun _ => ⟨hf.width, hf.fit, hf.cells⟩⟩

/-- The empty vector of NEW 0, 0 fits every block. -/
theorem fitsBlock_zero (depth : Nat) : FitsBlock depth 0 0 [] :=
  ⟨by decide, Nat.zero_le _, Memory.wf_nil, by simp⟩

/-- After a failed DECODE only the form of the store is promised. -/
theorem State.inv_loseVector {s : State} (hc : s.cfg.ok) : s.loseVector.Inv :=
  ⟨hc, Memory.wf_ofWords _, fun h => absurd h (by simp)⟩

/-- An in-contract SET lists only words below nwords (20_memory.md rule R25). -/
theorem State.Inv.insertElement {s : State} (h : s.Inv) (hu : s.unusable = false) {i : Nat} (hi : i < s.num.toNat)
    (v : Word) : State.Inv { s with store := insertElement s.store s.blen.toNat i v } := by
  obtain ⟨hwidth, hfit, hcells⟩ := h.vector hu
  refine ⟨h.cfgOk, wf_insertElement h.storeWf _ _ _, fun _ => ⟨hwidth, hfit, fun p hp => ?_⟩⟩
  rcases mem_insertElement hp with hp | ⟨h0, hp⟩
  · exact hcells p hp
  · obtain ⟨hblock, hnext⟩ := touched_lt_wordsNeeded h0 hi
    rcases hp with hp | ⟨hs, hp⟩
    · exact hp ▸ hblock
    · exact hp ▸ hnext hs

/-! ### The invariant and DEPTH along operations and steps -/

theorem Completes.inv {i : Instr} {s t : State} (h : Completes i s t) (hs : s.Inv) : t.Inv := by
  cases h with
  | reads d p hu hi => exact hs.respond _ _ _
  | sets index value hi hu hlt => exact (hs.insertElement hu hlt value).respond _ _ _
  | makes num blen m hf hi => exact (State.inv_makeVector hs.cfgOk hf).respond _ _ _
  | fails e he hi => exact hs.raise e
  | loses bytes hi e he => exact (State.inv_loseVector hs.cfgOk).raise e

theorem Completes.cfg_eq {i : Instr} {s t : State} (h : Completes i s t) : t.cfg = s.cfg := by cases h <;> rfl

theorem StepsTo.inv {s t : State} (h : StepsTo s t) (hs : s.Inv) : t.Inv := by
  cases h with
  | idle hp => exact hs
  | reset rest hp => exact State.inv_makeVector (s := { s with pending := rest }) hs.cfgOk (fitsBlock_zero _)
  | badOp r rest op hp hd => exact (hs.with_pending rest).raise _
  | command r rest i t hp hd hx hc => exact hc.inv (hs.with_pending rest)

theorem StepsTo.cfg_eq {s t : State} (h : StepsTo s t) : t.cfg = s.cfg := by
  cases h with
  | idle hp => rfl
  | reset rest hp => rfl
  | badOp r rest op hp hd => rfl
  | command r rest i t hp hd hx hc => exact hc.cfg_eq

/-- Settles O15: each way a step can go on keeps the invariant. -/
theorem invariantKeptByEveryStep : Obligations.InvariantKeptByEveryStep :=
  fun _ _ hs h => (step_next h).inv hs

/-! ### Reset and the reachable states -/

theorem State.inv_resetWith {c : Config} (hc : c.ok) : (State.resetWith c).Inv :=
  State.inv_makeVector (s := State.resetWith c) hc (fitsBlock_zero c.depth)

/-- Settles O14: the reset state holds the empty vector, which fits every block. -/
theorem invariantHoldsAfterReset : Obligations.InvariantHoldsAfterReset :=
  ⟨fun _ hc => State.inv_resetWith hc, State.inv_resetWith (by decide)⟩

theorem Reachable.cfg_eq {c : Config} {s : State} (h : Reachable c s) : s.cfg = c := by
  induction h with
  | reset => rfl
  | step _ hstep ih => exact (step_next hstep).cfg_eq.trans ih
  | issue x _ ih => exact ih

theorem Reachable.inv {c : Config} (hc : c.ok) {s : State} (h : Reachable c s) : s.Inv := by
  induction h with
  | reset => exact State.inv_resetWith hc
  | step _ hstep ih => exact (step_next hstep).inv ih
  | issue x _ ih => exact ih.with_pending _

/-- Settles O16: the invariant holds of every reachable state, and a canonical store with nothing listed from nwords on reads 0
there. -/
theorem reachableStatesAreVectors : Obligations.ReachableStatesAreVectors := by
  intro c s hc hr hu
  have hs : s.Inv := hr.inv hc
  obtain ⟨hwidth, hfit, hcells⟩ := hs.vector hu
  exact ⟨hwidth, hr.cfg_eq ▸ hfit, (Memory.listed_below_iff hs.storeWf s.nwords).1 hcells⟩

theorem nwords_resetWith (c : Config) : (State.resetWith c).nwords = 0 := by
  rw [State.nwords, State.resetWith_num, State.resetWith_blen]
  decide

/-- V-ENC-1: the encoding of the empty vector, after reset. -/
theorem encoding_resetWith (c : Config) : (State.resetWith c).encoding =
    [0x01, 0, 0, 0, 0, 0, 0, 0, 0, 0x02, 0, 0, 0, 0, 0, 0, 0, 0, 0x03, 0] := by
  rw [State.encoding, nwords_resetWith, State.resetWith_num, State.resetWith_blen, State.resetWith_store]
  decide

/-- Settles O13: NEW 0, 0 writes the empty vector the reset state holds already, and NUM = 0 puts every index out of
contract. -/
theorem resetStateIsNewZeroZero : Obligations.ResetStateIsNewZeroZero := by
  intro c s
  have hnew : exec (.new 0 0) s = .next ((s.makeVector 0 0 []).respond .ok 0 []) := by
    rw [exec, execNew_eq, if_neg (by decide), if_neg (Nat.not_lt.2 (fitsBlock_zero _).fit)]
  have hout (index : Word) : ¬ index.toNat < s.num.toNat := Nat.not_lt_zero _
  have hencode : exec .encode s = .next (s.respond .ok (BitVec.ofNat 64 s.encoding.length) s.encoding) := rfl
  rw [encoding_resetWith] at hencode
  exact ⟨rfl, rfl, nwords_resetWith c, rfl, rfl, rfl, rfl, hnew,
    fun index _ => ⟨fun h => hout index h.2, fun h => hout index h.2⟩, rfl, rfl, hencode⟩

end Sys2Proof.Machine
end

section
/-! SUPPORT. Operations and the unspecified state a failed DECODE leaves (10_state.md rule R19): each either needs the vector,
and stops, or rewrites it without looking at it. -/

namespace Sys2Proof.Machine

open Sys2Proof

/-- The operations that may rewrite the whole vector. -/
def Rewrites (i : Instr) : Prop :=
  (∃ num blen, i = .new num blen) ∨ (∃ bytes, i = .decode bytes) ∨ ∃ values, i = .newFromArray values

/-- What an operation does while the mark of R19 is set, in every state of one DEPTH alike: nothing here names NUM, BLEN or
the store that the operation meets. -/
inductive WhileUnusable (i : Instr) (depth : Nat) : Prop where
  | stops (h : ∀ s : State, s.unusable = true → exec i s = .fault .unusableState)
  | makes (hi : Rewrites i) (num : Word) (blen : Byte) (m : Memory)
      (h : ∀ s : State, s.cfg.depth = depth → exec i s = .next ((s.makeVector num blen m).respond .ok 0 []))
  | fails (hi : Rewrites i) (e : Status) (he : e ≠ .ok)
      (h : ∀ s : State, s.cfg.depth = depth → exec i s = .next (s.raise e))
  | loses (hi : Rewrites i) (e : Status) (he : e ≠ .ok)
      (h : ∀ s : State, s.cfg.depth = depth → exec i s = .next (s.loseVector.raise e))

theorem exec_whileUnusable (i : Instr) (depth : Nat) : WhileUnusable i depth := by
  cases i with
  | new num blen =>
    have hi : Rewrites (.new num blen) := .inl ⟨_, _, rfl⟩
    by_cases hb : 64 < blen.toNat
    · exact .fails hi .invalidWidth (by decide) fun s _ => by rw [exec, execNew_eq, if_pos hb]
    by_cases hd : depth < wordsNeeded num.toNat blen.toNat
    · exact .fails hi .capacity (by decide) fun s hs => by rw [exec, execNew_eq, if_neg hb, hs, if_pos hd]
    · exact .makes hi num blen [] fun s hs => by rw [exec, execNew_eq, if_neg hb, hs, if_neg hd]
  | get index => exact .stops fun s hu => by rw [exec, execGet_eq, if_pos hu]
  | set index value => exact .stops fun s hu => by rw [exec, execSet_eq, if_pos hu]
  | blen => exact .stops fun s hu => by rw [exec, execBlen, answerRead_eq, if_pos hu]
  | num => exact .stops fun s hu => by rw [exec, execNum, answerRead_eq, if_pos hu]
  | encode => exact .stops fun s hu => by rw [exec, execEncode, answerRead_eq, if_pos hu]
  | decode bytes =>
    have hi : Rewrites (.decode bytes) := .inr (.inl ⟨_, rfl⟩)
    cases hp : parseVector depth bytes with
    | ok r =>
      obtain ⟨v, rest⟩ := r
      exact .makes hi v.num v.blen (Memory.ofWords v.words) fun s hs => execDecode_ok (rest := rest) (hs ▸ hp)
    | error e =>
      have he : e ≠ .ok := by rcases parseVector_error hp with rfl | rfl <;> decide
      exact .loses hi e he fun s hs => execDecode_error (hs ▸ hp)
  | newFromArray values =>
    have hi : Rewrites (.newFromArray values) := .inr (.inr ⟨_, rfl⟩)
    by_cases hd : depth < wordsNeeded values.length (inferWidth values)
    · exact .fails hi .capacity (by decide) fun s hs => by rw [exec, execNewFromArray_eq, hs, if_pos hd]
    · exact .makes hi _ _ _ fun s hs => by rw [exec, execNewFromArray_eq, hs, if_neg hd]

/-- Settles O50: what completes while the mark is set rewrites, and only a rewrite that succeeds answers OK. -/
theorem unspecifiedUntilRewritten : Obligations.UnspecifiedUntilRewritten := by
  intro i s t hu hx
  cases exec_whileUnusable i s.cfg.depth with
  | stops h => exact absurd ((h s hu).symm.trans hx) (by simp)
  | makes hi num blen m h =>
    cases (h s rfl).symm.trans hx
    exact ⟨hi, _, rfl, by simp⟩
  | fails hi e he h =>
    cases (h s rfl).symm.trans hx
    exact ⟨hi, _, rfl, by simp [hu, he]⟩
  | loses hi e he h =>
    cases (h s rfl).symm.trans hx
    exact ⟨hi, _, rfl, by simp [he]⟩

/-! ### Two blocks that differ in the vector they hold -/

/-- The same block with another vector in its registers and store. -/
def State.withVector (s : State) (num : Word) (blen : Byte) (m : Memory) : State :=
  { s with num := num, blen := blen, store := m }

/-- While the mark is set, an operation does to two blocks that differ in the vector the very same, or answers both with the
same error and leaves them as they were. -/
theorem exec_withVector (i : Instr) {s : State} (num : Word) (blen : Byte) (m : Memory) (hu : s.unusable = true) :
    exec i (s.withVector num blen m) = exec i s ∨
      ∃ e, exec i s = .next (s.raise e) ∧ exec i (s.withVector num blen m) = .next ((s.raise e).withVector num blen m) := by
  cases exec_whileUnusable i s.cfg.depth with
  | stops h => exact .inl ((h (s.withVector num blen m) hu).trans (h s hu).symm)
  | makes hi n b l h => exact .inl ((h (s.withVector num blen m) rfl).trans (h s rfl).symm)
  | fails hi e he h => exact .inr ⟨e, h s rfl, h (s.withVector num blen m) rfl⟩
  | loses hi e he h => exact .inl ((h (s.withVector num blen m) rfl).trans (h s rfl).symm)

/-- The same of a sequence of operations: the very same outcome, or two blocks that still differ in the vector alone. -/
theorem execAll_withVector (l : List Instr) {s : State} (num : Word) (blen : Byte) (m : Memory) (hu : s.unusable = true) :
    execAll l (s.withVector num blen m) = execAll l s ∨
      ∃ t : State, t.unusable = true ∧ execAll l s = .next t ∧
        execAll l (s.withVector num blen m) = .next (t.withVector num blen m) := by
  induction l generalizing s with
  | nil => exact .inr ⟨s, hu, rfl, rfl⟩
  | cons i is ih =>
    rcases exec_withVector i num blen m hu with h | ⟨e, h, h'⟩
    · exact .inl (by rw [execAll, execAll, h])
    · rw [execAll, execAll, h, h']
      exact ih (s := s.raise e) hu

/-- Settles O51: an outcome that is not the very same is one where the mark is still set, so it is no fault and no usable
state. -/
theorem nothingDependsOnTheUnspecifiedState : Obligations.NothingDependsOnTheUnspecifiedState := by
  intro l s num blen m hu s'
  rcases execAll_withVector l num blen m hu with h | ⟨t, ht, h, h'⟩
  · rw [show execAll l s' = execAll l s from h]
    exact ⟨fun f => Iff.rfl, fun t ht => ⟨t, ht, rfl, rfl, fun _ => rfl⟩⟩
  · rw [h, show execAll l s' = .next (t.withVector num blen m) from h']
    refine ⟨fun f => by simp, fun u hu' => ?_⟩
    cases hu'
    exact ⟨_, rfl, rfl, rfl, fun hf => absurd (ht.symm.trans hf) (by simp)⟩

end Sys2Proof.Machine
end

section
/-! SUPPORT. One command at a time (20_memory.md rule R30): the step on an encoded request, and a queue of them. -/

namespace Sys2Proof

/-- The decoder gives back the operation a request was made from (30_encoding.md rules R35, R37, R38). -/
theorem decode_encode {i : Instr} (hw : i.wellFormed = true) : decode (encode i) = .ok i := by
  cases i with
  | new num blen =>
    simp [decode, encode, opField_commandWord, operandA_commandWord, operandB_commandWord, widthOperand_setWidth, Instr.opcode]
  | get index => simp [decode, encode, opField_commandWord, operandA_commandWord, Instr.opcode]
  | set index value =>
    simp [decode, encode, opField_commandWord, operandA_commandWord, operandB_commandWord, Instr.opcode]
  | blen => simp [decode, encode, opField_commandWord, Instr.opcode]
  | num => simp [decode, encode, opField_commandWord, Instr.opcode]
  | encode => simp [decode, encode, opField_commandWord, Instr.opcode]
  | decode bytes => simp [decode, encode, opField_commandWord, Instr.opcode, bytePayload]
  | newFromArray values => simp [decode, encode, opField_commandWord, Instr.opcode, wordPayload, hw]

namespace Machine

/-- Settles O6: the port takes the oldest request and runs what the decoder reads in it. -/
theorem stepRunsTheDecodedCommand : Obligations.StepRunsTheDecodedCommand := by
  intro s r rest i hp hd
  rw [step, takeInput, hp]
  simp only [takeRequest, hd]

/-- A step on an encoded operation does what the operation does, and the rest of the queue waits. -/
theorem step_encode {i : Instr} (hw : i.wellFormed = true) (s : State) (rest : List HostInput) :
    step { s with pending := .command (encode i) :: rest } = exec i { s with pending := rest } :=
  stepRunsTheDecodedCommand _ _ _ _ rfl (decode_encode hw)

/-- Settles O9, by induction on the queue: no operation looks at what waits behind it. -/
theorem queuedCommandsRunInOrder : Obligations.QueuedCommandsRunInOrder := by
  intro s l hl
  induction l generalizing s with
  | nil => rfl
  | cons i is ih =>
    obtain ⟨hi, his⟩ := List.forall_mem_cons.1 hl
    rw [List.length_cons, List.map_cons, stepAll, execAll, step_encode hi, exec_pending, exec_pending i s []]
    cases exec i s with
    | next t => exact ih t his
    | fault f => rfl
    | refused r => rfl

end Machine

end Sys2Proof
end

section
/-! SUPPORT. What GET and SET reach of the store (20_memory.md rules R25, R26, R33): the words of their own element alone,
all of them architectural, and what a SET done twice stores. -/

namespace Sys2Proof.Machine

open Sys2Proof

/-- The extractor reads no word but the one or two of its element. -/
theorem extractElement_congr {m m' : Memory} {b i : Nat}
    (hblock : b ≠ 0 → Memory.read m (blockOf b i) = Memory.read m' (blockOf b i))
    (hnext : b ≠ 0 → straddles b i = true → Memory.read m (blockOf b i + 1) = Memory.read m' (blockOf b i + 1)) :
    extractElement m b i = extractElement m' b i := by
  unfold extractElement
  split
  · rfl
  · next h0 =>
    rw [hblock h0]
    by_cases hs : straddles b i = true
    · rw [hnext h0 hs]
    · simp only [if_neg hs]

/-- An element below `num` is the same in two stores that agree on the words `num` elements need. -/
theorem extractElement_eq_of_agree {m m' : Memory} {num b i : Nat} (hi : i < num)
    (h : ∀ a, a < wordsNeeded num b → Memory.read m a = Memory.read m' a) :
    extractElement m b i = extractElement m' b i :=
  extractElement_congr (fun h0 => h _ (touched_lt_wordsNeeded h0 hi).1)
    fun h0 hs => h _ ((touched_lt_wordsNeeded h0 hi).2 hs)

/-- Inserting an element below `num` leaves every word beyond those that `num` elements need. -/
theorem read_insertElement_of_wordsNeeded_le {m : Memory} (hm : Memory.wf m) {num b i a : Nat} (hi : i < num) (v : Word)
    (ha : wordsNeeded num b ≤ a) : Memory.read (insertElement m b i v) a = Memory.read m a := by
  by_cases h0 : b = 0
  · rw [insertElement, if_pos h0]
  · obtain ⟨hblock, hnext⟩ := touched_lt_wordsNeeded h0 hi
    exact read_insertElement_of_untouched hm b i v a (by omega) fun hs => by have := hnext hs; omega

/-- Settles O22: the position decoder stays below nwords, and so do the words that GET reads and SET writes. -/
theorem inContractElementLiesInTheStore : Obligations.InContractElementLiesInTheStore := by
  intro s index ⟨hinv, hu⟩ hi
  refine ⟨fun h0 => touched_lt_wordsNeeded h0 hi, fun m hm => ?_, fun value => ?_⟩
  · have hget : exec (.get index) { s with store := m } =
        .next (State.respond { s with store := m } .ok (extractElement m s.blen.toNat index.toNat) []) := execGet_next hu hi
    rw [extractElement_eq_of_agree hi hm] at hget
    exact ⟨_, execGet_next hu hi, hget⟩
  · exact ⟨_, execSet_next hu hi, fun a ha => read_insertElement_of_wordsNeeded_le hinv.storeWf hi value ha⟩

/-- ORing in the same bits again changes nothing. -/
theorem insertElement_twice {m : Memory} (hm : Memory.wf m) {b : Nat} (hb : b ≤ 64) (i : Nat) (v : Word) :
    insertElement (insertElement m b i v) b i v = insertElement m b i v := by
  have hm' : Memory.wf (insertElement m b i v) := wf_insertElement hm b i v
  refine Memory.ext_bit (wf_insertElement hm' b i v) hm' fun g => ?_
  rw [bit_insertElement hm' hb, bit_insertElement hm hb, Bool.or_assoc, Bool.or_self]

/-- A sequence whose first operation completes goes on from the state it leaves. -/
theorem execAll_cons_of_next {i : Instr} {is : List Instr} {s t : State} (h : exec i s = .next t) :
    execAll (i :: is) s = execAll is t := by
  rw [execAll, h]

/-- Two in-contract SETs, one after the other: both complete, and the second finds what the first has stored. -/
theorem execAll_set_set {s : State} {i j : Word} (hu : s.unusable = false) (hi : i.toNat < s.num.toNat)
    (hj : j.toNat < s.num.toNat) (a b : Word) :
    execAll [.set i a, .set j b] s = .next ((State.respond { s with
      store := insertElement (insertElement s.store s.blen.toNat i.toNat a) s.blen.toNat j.toNat b } .ok 0 []).respond
        .ok 0 []) :=
  let t := State.respond { s with store := insertElement s.store s.blen.toNat i.toNat a } .ok 0 []
  calc execAll [.set i a, .set j b] s
    _ = execAll [.set j b] t := execAll_cons_of_next (execSet_next hu hi)
    _ = execAll [] _ := execAll_cons_of_next (execSet_next (s := t) hu hj)

/-- Settles O29: the second SET is in contract like the first, and the inserter is idempotent. -/
theorem setTwiceStoresAsOnce : Obligations.SetTwiceStoresAsOnce := by
  intro s i a ⟨hinv, hu⟩ hi
  obtain ⟨hwidth, -, -⟩ := hinv.vector hu
  have hstore := insertElement_twice hinv.storeWf hwidth i.toNat a
  exact ⟨_, _, execSet_next hu hi, execAll_set_set hu hi hi a a, hstore⟩

/-- An operation that completes has read, or is a SET, or is one that may rewrite the whole vector. -/
theorem Completes.read_or_set_or_rewrites {i : Instr} {s t : State} (h : Completes i s t) :
    (∃ d p, t = s.respond .ok d p) ∨ (∃ index value, i = .set index value) ∨ Rewrites i := by
  cases h with
  | reads d p hu hi => exact .inl ⟨d, p, rfl⟩
  | sets index value hi hu hlt => exact .inr (.inl ⟨index, value, hi⟩)
  | makes num blen m hf hi => exact .inr (.inr hi)
  | fails e he hi => exact .inr (.inr (hi.imp_right .inr))
  | loses bytes hi e he => exact .inr (.inr (.inr (.inl ⟨bytes, hi⟩)))

/-- Settles O21: GET, BLEN, NUM and ENCODE are neither SET nor a rewriter, so they complete by reading. -/
theorem readingCommandsChangeNothing : Obligations.ReadingCommandsChangeNothing := by
  intro i s t hi h
  have hw : i.wellFormed = true := by rcases hi with ⟨index, rfl⟩ | rfl | rfl | rfl <;> rfl
  have hno : ¬ ((∃ index value, i = .set index value) ∨ Rewrites i) := by
    rcases hi with ⟨index, rfl⟩ | rfl | rfl | rfl <;> simp [Rewrites]
  obtain ⟨d, p, rfl⟩ := (exec_completes hw h).read_or_set_or_rewrites.resolve_right hno
  exact ⟨_, rfl, rfl⟩

end Sys2Proof.Machine
end

section
/-! SUPPORT. The decoder, case by case of the opcode field (30_encoding.md rules R37, R38, R39, R41), and the one response a
request taken is answered with (rule R36, 20_memory.md rule R30). -/

namespace Sys2Proof

/-- Settles O1: the fields of the encoded command word are the operands it was made from. -/
theorem decodeOfEncodeIsIdentity : Obligations.DecodeOfEncodeIsIdentity := fun _ hw => decode_encode hw

/-! ### The decoder on a command word written as a number -/

/-- `CW = B * 2^72 + A * 2^8 + op` is the concatenation `{B, A, op}` (R35). -/
theorem ofNat_eq_commandWord {op : Nat} (hop : op < 2 ^ 8) (a b : Word) :
    BitVec.ofNat 136 (b.toNat * 2 ^ 72 + a.toNat * 2 ^ 8 + op) = commandWord (BitVec.ofNat 8 op) a b := by
  have htoNat := toNat_commandWord (BitVec.ofNat 8 op) a b
  rw [BitVec.toNat_ofNat, Nat.mod_eq_of_lt hop] at htoNat
  rw [← htoNat, BitVec.ofNat_toNat, BitVec.setWidth_eq]

/-- The width operand is B mod 2^8 (R38). -/
theorem widthOperand_eq_ofNat (b : Word) : widthOperand b = BitVec.ofNat 8 b.toNat := rfl

/-- Opcode 7 is DECODE, whatever the operand fields hold. -/
theorem decode_of_opField_seven {r : Request} (h : opField r.cw = 7) : decode r = .ok (.decode (bytePayload r.payload)) := by
  simp [decode, h]

/-- Opcode 8 is NEWFROMARRAY, whatever the operand fields hold, unless the payload is too long (R73). -/
theorem decode_of_opField_eight {r : Request} (h : opField r.cw = 8) :
    decode r = if (Instr.newFromArray (wordPayload r.payload)).wellFormed then .ok (.newFromArray (wordPayload r.payload))
      else .error .payloadTooLong := by
  simp [decode, h]

theorem decode_newFromArray {cw : CommandWord} {p : Payload} (h : opField cw = 8) (hlen : (wordPayload p).length < 2 ^ 64) :
    decode ⟨cw, p⟩ = .ok (.newFromArray (wordPayload p)) := by
  rw [decode_of_opField_eight h]
  exact if_pos (decide_eq_true hlen)

/-- An opcode that takes no payload-in ignores one. -/
theorem decode_ignores_payload {cw : CommandWord} (h7 : opField cw ≠ 7) (h8 : opField cw ≠ 8) (p q : Payload) :
    decode ⟨cw, p⟩ = decode ⟨cw, q⟩ := by
  unfold decode
  split
  case h_7 h => exact absurd (BitVec.eq_of_toNat_eq h) h7
  case h_8 h => exact absurd (BitVec.eq_of_toNat_eq h) h8
  all_goals simp [*]

/-- An opcode outside 1 to 8 stands for no operation. -/
theorem decode_reserved {r : Request} (h : (opField r.cw).toNat = 0 ∨ 9 ≤ (opField r.cw).toNat) :
    decode r = .error (.reservedOpcode (opField r.cw)) := by
  unfold decode
  split
  case h_9 => rfl
  all_goals omega

/-- Settles O2: the word is `{B, A, op}`, so its fields are `op`, `A` and `B`. -/
theorem operandsAreTheFieldsOfTheCommandWord : Obligations.OperandsAreTheFieldsOfTheCommandWord := by
  intro a b p request
  have hrequest {op : Nat} (hop : op < 2 ^ 8) : request op = ⟨commandWord (BitVec.ofNat 8 op) a b, p⟩ :=
    congrArg (Request.mk · p) (ofNat_eq_commandWord hop a b)
  have hfield {op : Nat} (hop : op < 2 ^ 8) : opField (request op).cw = BitVec.ofNat 8 op := by
    rw [hrequest hop, opField_commandWord]
  refine ⟨?new, ?get, ?set, ?blen, ?num, ?encode, ?decode, ?newFromArray⟩
  case decode => rw [decode_of_opField_seven (hfield (by decide)), decode_of_opField_seven (show opField 7 = 7 by decide)]
  case newFromArray => rw [decode_of_opField_eight (hfield (by decide)), decode_of_opField_eight (show opField 8 = 8 by decide)]
  all_goals
    rw [hrequest (by decide)]
    simp [decode, opField_commandWord, operandA_commandWord, operandB_commandWord, widthOperand_eq_ofNat]

/-- Settles O3, by the opcode field. -/
theorem payloadIsTheOperandOfDecodeAndNewFromArray : Obligations.PayloadIsTheOperandOfDecodeAndNewFromArray := by
  intro cw
  refine ⟨fun h7 => ⟨fun bytes => ?_, ?_⟩, fun h8 => ⟨fun values hlen => ?_, ?_⟩, fun h7 h8 p => ?_⟩
  · exact decode_of_opField_seven h7
  · exact decode_of_opField_seven h7
  · exact decode_newFromArray (p := .words values) h8 hlen
  · exact decode_newFromArray (p := .none) h8 (by decide)
  · exact decode_ignores_payload h7 h8 p .none

namespace Machine

/-- Settles O4: the decoder rejects the opcode by name, and the port reports it. -/
theorem reservedOpcodesAnswerBadOp : Obligations.ReservedOpcodesAnswerBadOp := by
  intro s r rest hp hop
  rw [step, takeInput, hp]
  simp only [takeRequest, decode_reserved hop]
  rfl

/-! ### The one response to a request -/

/-- What a response to a request of opcode `op` may carry (R36). -/
structure Response.MayAnswer (resp : Response) (op : Byte) : Prop where
  payload : resp.payload ≠ [] → op = 6 ∧ resp.status = .ok
  data : resp.data ≠ 0 → resp.status = .ok ∧ (op = 2 ∨ op = 4 ∨ op = 5 ∨ op = 6)

/-- From `s` to `t` one response to a request of opcode `op` has been sent; the queue and DEPTH are as they were. -/
structure AnswersOnce (op : Byte) (s t : State) : Prop where
  pending : t.pending = s.pending
  cfg : t.cfg = s.cfg
  response : ∃ resp, t.responses = s.responses ++ [resp] ∧ resp.MayAnswer op

/-- A response that carries nothing may answer every request. -/
theorem Response.MayAnswer.empty (st : Status) (op : Byte) : Response.MayAnswer ⟨st, 0, []⟩ op :=
  ⟨fun h => absurd rfl h, fun h => absurd rfl h⟩

theorem State.respond_payload_inj {s : State} {st st' : Status} {d d' : Word} {p p' : List Byte}
    (h : s.respond st d p = s.respond st' d' p') : p = p' := by
  simpa using congrArg (fun t => t.responses.getLast?.map Response.payload) h

theorem payload_eq_of_answerRead {s : State} {d d' : Word} {p p' : List Byte}
    (h : s.answerRead d p = .next (s.respond .ok d' p')) : p' = p := by
  rw [answerRead_eq] at h
  split_ifs at h
  exact (State.respond_payload_inj (Host.Outcome.next.inj h)).symm

/-- Of the operations that answer with what they read, only ENCODE sends a payload. -/
theorem payload_eq_nil_of_reads {i : Instr} {s : State} {d : Word} {p : List Byte}
    (hi : (∃ index, i = .get index) ∨ i = .blen ∨ i = .num ∨ i = .encode) (h : exec i s = .next (s.respond .ok d p)) :
    i = .encode ∨ p = [] := by
  obtain ⟨index, rfl⟩ | rfl | rfl | rfl := hi
  · rw [exec, execGet_eq] at h
    split_ifs at h
    exact .inr (State.respond_payload_inj (Host.Outcome.next.inj h)).symm
  · exact .inr (payload_eq_of_answerRead h)
  · exact .inr (payload_eq_of_answerRead h)
  · exact .inl rfl

theorem exec_answersOnce {i : Instr} {s t : State} (hw : i.wellFormed = true) (h : exec i s = .next t) :
    AnswersOnce i.opcode s t := by
  cases exec_completes hw h with
  | reads d p hu hi =>
    have hop : i.opcode = 2 ∨ i.opcode = 4 ∨ i.opcode = 5 ∨ i.opcode = 6 := by
      obtain ⟨index, rfl⟩ | rfl | rfl | rfl := hi <;> simp [Instr.opcode]
    refine ⟨rfl, rfl, _, rfl, fun hne => ⟨?_, rfl⟩, fun _ => ⟨rfl, hop⟩⟩
    exact congrArg Instr.opcode ((payload_eq_nil_of_reads hi h).resolve_right hne)
  | sets index value hi hu hlt => exact ⟨rfl, rfl, _, rfl, .empty _ _⟩
  | makes num blen m hf hi => exact ⟨rfl, rfl, _, rfl, .empty _ _⟩
  | fails e he hi => exact ⟨rfl, rfl, _, rfl, .empty _ _⟩
  | loses bytes hi e he => exact ⟨rfl, rfl, _, rfl, .empty _ _⟩

/-- A step that takes a request answers it once. -/
theorem StepsTo.answersOnce {s t : State} (h : StepsTo s t) {r : Request} {rest : List HostInput}
    (hp : s.pending = .command r :: rest) : AnswersOnce (opField r.cw) { s with pending := rest } t := by
  cases h with
  | idle hp' => simp [hp] at hp'
  | reset rest' hp' => simp [hp] at hp'
  | badOp r' rest' op hp' hd =>
    cases hp.symm.trans hp'
    exact ⟨rfl, rfl, _, rfl, .empty _ _⟩
  | command r' rest' i t hp' hd hx hc =>
    cases hp.symm.trans hp'
    rw [opField_of_decode hd]
    exact exec_answersOnce (decode_wellFormed hd) hx

/-- Settles O8: a request is answered BAD_OP or by the operation it stands for, once either way. -/
theorem everyRequestGetsOneResponseInOrder : Obligations.EveryRequestGetsOneResponseInOrder := by
  intro s t r rest hp h
  obtain ⟨hpending, hcfg, resp, hresp, hpayload, hdata⟩ := (step_next h).answersOnce hp
  exact ⟨hpending, hcfg, resp, hresp, hpayload, hdata⟩

end Machine

end Sys2Proof
end

section
/-! SUPPORT. GET, the extractor: its element as words of the store (40_extractor.md rules R50, R51, R55, R56), what stops it
out of contract (R53), and what it reads after NEW and a list of SETs (R57). -/

namespace Sys2Proof.Machine

open Sys2Proof

/-! ### The position decoder -/

/-- Settles O23: `offset` is a remainder modulo 64, a straddle at a width of at most 64 needs `offset > 0`, and at width 64
the position is a multiple of 64. -/
theorem shiftAmountsStayBelow64 : Obligations.ShiftAmountsStayBelow64 := by
  intro blen index hpos hwidth
  have ho := offsetOf_lt blen index
  refine ⟨ho, fun hs => ?_, fun h64 => ?_, fun hlt => ⟨hpos, Nat.pow_lt_pow_right (by norm_num) hlt⟩⟩
  · have hstraddle := (straddles_iff blen index).1 hs
    omega
  · subst h64
    have hoffset : offsetOf 64 index = 0 := Nat.mul_mod_left index 64
    exact ⟨by simp [straddles, hoffset], hoffset⟩

/-! ### The element as words of the store -/

/-- Bit `j` of an element is a bit of `W[block]`, or of `W[block+1]` past the end of the word (20_memory.md rules R21, R24). -/
theorem Memory.bit_element (m : Memory) {j : Nat} (hj : j < 64) (b i : Nat) :
    m.bit (i * b + j) =
      if offsetOf b i + j < 64 then (Memory.read m (blockOf b i)).getLsbD (offsetOf b i + j)
      else (Memory.read m (blockOf b i + 1)).getLsbD (offsetOf b i + j - 64) := by
  have ho := offsetOf_lt b i
  rw [position_eq b i, Nat.add_assoc]
  split
  · next hlow => exact Memory.bit_word m _ _ hlow
  · next hhigh =>
    rw [show 64 * blockOf b i + (offsetOf b i + j) = 64 * (blockOf b i + 1) + (offsetOf b i + j - 64) by omega]
    exact Memory.bit_word m _ _ (by omega)

theorem extractElement_width_zero (m : Memory) (i : Nat) : extractElement m 0 i = 0 := rfl

/-- An element that ends exactly at bit 63 is the top of its word: the shift leaves nothing to mask. -/
theorem extractElement_exact_fit (m : Memory) {b i : Nat} (hfit : offsetOf b i + b = 64) :
    extractElement m b i = Memory.read m (blockOf b i) >>> offsetOf b i := by
  apply BitVec.eq_of_getLsbD_eq
  intro j hj
  rw [getLsbD_extractElement m (by omega), Memory.bit_element m hj, BitVec.getLsbD_ushiftRight]
  by_cases hjb : j < b
  · rw [if_pos (by omega), decide_eq_true hjb, Bool.true_and]
  · rw [decide_eq_false hjb, Bool.false_and, BitVec.getLsbD_of_ge _ _ (by omega)]

/-- At width 64 an element is a word. -/
theorem extractElement_width_64 (m : Memory) (i : Nat) : extractElement m 64 i = Memory.read m i := by
  have hoffset : offsetOf 64 i = 0 := Nat.mul_mod_left i 64
  have hblock : blockOf 64 i = i := Nat.mul_div_left i (by norm_num)
  rw [extractElement_exact_fit m (by rw [hoffset]), hoffset, hblock, BitVec.ushiftRight_zero]

/-- The extractor is one right shift of `{hi, W[block]}`, masked (R56). Off a straddle the mask cuts every bit of `hi`. -/
theorem extractElement_eq_shift (m : Memory) {b : Nat} (hb : b ≤ 64) (i : Nat) {hi : Word}
    (hhi : straddles b i = true → hi = Memory.read m (blockOf b i + 1)) :
    extractElement m b i =
      BitVec.setWidth 64 ((hi ++ Memory.read m (blockOf b i) : BitVec 128) >>> offsetOf b i) &&& mask b := by
  apply BitVec.eq_of_getLsbD_eq
  intro j hj
  rw [getLsbD_extractElement m hb, BitVec.getLsbD_and, BitVec.getLsbD_setWidth, BitVec.getLsbD_ushiftRight,
    BitVec.getLsbD_append, getLsbD_mask, decide_eq_true hj, Bool.true_and, Bool.true_and, Bool.and_comm]
  by_cases hjb : j < b
  swap
  · simp [hjb]
  congr 1
  rw [Memory.bit_element m hj]
  by_cases hlow : offsetOf b i + j < 64
  · rw [if_pos hlow, if_pos hlow]
  · rw [hhi ((straddles_iff b i).2 (by omega))]

/-! ### GET -/

/-- Settles O18: the extractor's law, bit by bit. -/
theorem getReturnsTheElementsBits : Obligations.GetReturnsTheElementsBits := by
  intro s index ⟨hinv, hu⟩ hi
  obtain ⟨hwidth, -, -⟩ := hinv.vector hu
  have hbits := getLsbD_extractElement s.store hwidth index.toNat
  refine ⟨_, execGet_next hu hi, fun j hj => ?_, fun j hj => ?_⟩
  · rw [hbits, decide_eq_true hj, Bool.true_and, Memory.bit]
  · rw [hbits, decide_eq_false (by omega), Bool.false_and]

/-- Settles O19: the extractor's three corners. -/
theorem getCornerCases : Obligations.GetCornerCases := by
  intro s index ⟨_, hu⟩ hi
  refine ⟨_, execGet_next hu hi, fun h0 => ?_, fun h64 => ?_, fun _ hfit => extractElement_exact_fit s.store hfit⟩
  · rw [h0, extractElement_width_zero]
  · rw [h64, extractElement_width_64]

/-- Settles O20: the extractor's shift form, at every width of a usable state. -/
theorem getIsOne128BitShift : Obligations.GetIsOne128BitShift := by
  intro s index hi ⟨hinv, hu⟩ hindex pos hhi
  obtain ⟨hwidth, -, -⟩ := hinv.vector hu
  have hshift := extractElement_eq_shift s.store hwidth index.toNat fun hs => hhi ((straddles_iff _ _).1 hs)
  have hget : exec (.get index) s = _ := execGet_next hu hindex
  rw [hshift] at hget
  exact hget

/-- Settles O12: GET and SET test the mark before the index, and the commands that only read test the mark alone. -/
theorem outOfContractCommandsFault : Obligations.OutOfContractCommandsFault := by
  intro s index value
  refine ⟨fun hu hi => ⟨?_, ?_⟩, fun hu => ⟨?_, ?_, ?_, ?_, ?_⟩⟩
  · rw [exec, execGet_eq, hu, if_neg Bool.false_ne_true, if_pos hi]
  · rw [exec, execSet_eq, hu, if_neg Bool.false_ne_true, if_pos hi]
  · rw [exec, execGet_eq, if_pos hu]
  · rw [exec, execSet_eq, if_pos hu]
  · rw [exec, execBlen, answerRead_eq, if_pos hu]
  · rw [exec, execNum, answerRead_eq, if_pos hu]
  · rw [exec, execEncode, answerRead_eq, if_pos hu]

/-! ### Reading back a list of SETs -/

/-- The store a list of SETs, each an index and its value, leaves. -/
def insertElements (b : Nat) : List (Word × Word) → Memory → Memory
  | [], m => m
  | p :: l, m => insertElements b l (insertElement m b p.1.toNat p.2)

/-- In-contract SETs all complete, and together they store what `insertElements` says; the registers stay. -/
theorem execAll_sets {s : State} (hu : s.unusable = false) {l : List (Word × Word)}
    (hl : ∀ p ∈ l, p.1.toNat < s.num.toNat) :
    ∃ t, execAll (l.map fun p => .set p.1 p.2) s = .next t ∧ t.unusable = false ∧ t.num = s.num ∧ t.blen = s.blen ∧
      t.store = insertElements s.blen.toNat l s.store := by
  induction l generalizing s with
  | nil => exact ⟨s, rfl, hu, rfl, rfl, rfl⟩
  | cons p l ih =>
    obtain ⟨hp, hl⟩ := List.forall_mem_cons.1 hl
    have hset : exec (.set p.1 p.2) s = _ := execSet_next hu hp
    rw [List.map_cons, execAll_cons_of_next hset]
    exact ih hu hl

/-- An element that is not set keeps its value. -/
theorem extractElement_insertElements_of_not_mem {m : Memory} (hm : Memory.wf m) {b : Nat} (hb : b ≤ 64)
    {l : List (Word × Word)} {i : Word} (hi : i ∉ l.map Prod.fst) :
    extractElement (insertElements b l m) b i.toNat = extractElement m b i.toNat := by
  induction l generalizing m with
  | nil => rfl
  | cons p l ih =>
    rw [List.map_cons, List.mem_cons, not_or] at hi
    obtain ⟨hne, hi⟩ := hi
    rw [insertElements, ih (wf_insertElement hm b _ _) hi, extractElement_insertElement hm hb,
      if_neg (BitVec.toNat_ne.1 hne)]

/-- An element that is set once holds the OR of its old value and the value set, cut to BLEN bits. -/
theorem extractElement_insertElements_of_mem {m : Memory} (hm : Memory.wf m) {b : Nat} (hb : b ≤ 64)
    {l : List (Word × Word)} (hl : (l.map Prod.fst).Nodup) {p : Word × Word} (hp : p ∈ l) :
    extractElement (insertElements b l m) b p.1.toNat = extractElement m b p.1.toNat ||| cutToWidth b p.2 := by
  induction l generalizing m with
  | nil => exact absurd hp List.not_mem_nil
  | cons q l ih =>
    rw [List.map_cons, List.nodup_cons] at hl
    obtain ⟨hq, hl⟩ := hl
    have hm' := wf_insertElement hm b q.1.toNat q.2
    rcases List.mem_cons.1 hp with rfl | hp
    · rw [insertElements, extractElement_insertElements_of_not_mem hm' hb hq, extractElement_insertElement hm hb,
        if_pos rfl]
    · have hne : p.1 ≠ q.1 := fun h => hq (h ▸ List.mem_map_of_mem hp)
      rw [insertElements, ih hm' hl hp, extractElement_insertElement hm hb, if_neg (BitVec.toNat_ne.1 hne)]

/-- NEW of a vector that fits completes, with a store of zeros. -/
theorem exec_new_next {num : Word} {blen : Byte} {s : State} (hwidth : blen.toNat ≤ 64)
    (hfit : wordsNeeded num.toNat blen.toNat ≤ s.cfg.depth) :
    exec (.new num blen) s = .next ((s.makeVector num blen []).respond .ok 0 []) := by
  rw [exec, execNew_eq, if_neg (by omega), if_neg (by omega)]

/-- Settles O33: NEW leaves zeros, the SETs all complete, and each element was set once or never. -/
theorem readBackLaw : Obligations.ReadBackLaw := by
  intro s num blen l _ hwidth hfit hnodup hl
  obtain ⟨t, hexec, hu, hnum, hblen, hstore⟩ := execAll_sets (s := (s.makeVector num blen []).respond .ok 0 []) rfl hl
  have hget (i : Word) (hi : i.toNat < num.toNat) : exec (.get i) t =
      .next (t.respond .ok (extractElement (insertElements blen.toNat l []) blen.toNat i.toNat) []) := by
    have h : exec (.get i) t = _ := execGet_next hu (hnum ▸ hi)
    rw [hstore, hblen] at h
    exact h
  refine ⟨t, (execAll_cons_of_next (exec_new_next hwidth hfit)).trans hexec, fun p hp => ?_, fun i hi hnot => ?_⟩
  · rw [hget p.1 (hl p hp), extractElement_insertElements_of_mem Memory.wf_nil hwidth hnodup hp,
      extractElement_nil hwidth, BitVec.ofNat_eq_ofNat, BitVec.zero_or, ofNat_mod_eq_cutToWidth]
  · rw [hget i hi, extractElement_insertElements_of_not_mem Memory.wf_nil hwidth hnot, extractElement_nil hwidth]

end Sys2Proof.Machine
end

section
/-! SUPPORT. SET, the inserter: the words it stores (41_inserter.md rules R60, R61), its one 128-bit merge (R68), what GET
reads after it (R62, R63), that SETs commute (R66), and that the store only gains 1 bits between rewrites (R67). -/

namespace Sys2Proof.Machine

open Sys2Proof

/-! ### The words SET stores -/

theorem cutToWidth_zero (v : Word) : cutToWidth 0 v = 0 := by
  apply BitVec.eq_of_getLsbD_eq
  intro j _
  simp [getLsbD_cutToWidth]

/-- An element of width 0 has no bits, so it lies in one word. -/
theorem straddles_zero (i : Nat) : straddles 0 i = false := rfl

/-- The word at every address after the inserter: its part of the cut value is ORed in at `block`, and at `block + 1` on a
straddle. At width 0 the cut value is 0. -/
theorem read_insertElement {m : Memory} (hm : Memory.wf m) (b i : Nat) (v : Word) (a : Nat) :
    Memory.read (insertElement m b i v) a =
      if a = blockOf b i then Memory.read m a ||| cutToWidth b v <<< offsetOf b i
      else if a = blockOf b i + 1 ∧ straddles b i = true then
        Memory.read m a ||| cutToWidth b v >>> (64 - offsetOf b i)
      else Memory.read m a := by
  by_cases hblock : a = blockOf b i
  · subst hblock
    rw [if_pos rfl]
    by_cases h0 : b = 0
    · subst h0
      simp [insertElement, cutToWidth_zero]
    rw [insertElement, if_neg h0]
    dsimp only
    split
    · rw [Memory.read_write (Memory.wf_write hm _ _), if_neg (by omega), Memory.read_write hm, if_pos rfl]
    · rw [Memory.read_write hm, if_pos rfl]
  rw [if_neg hblock]
  split
  · next hnext =>
    obtain ⟨rfl, hs⟩ := hnext
    have h0 : b ≠ 0 := by rintro rfl; exact absurd hs (by simp [straddles_zero])
    rw [insertElement, if_neg h0]
    dsimp only
    rw [if_pos hs, Memory.read_write (Memory.wf_write hm _ _), if_pos rfl, Memory.read_write hm, if_neg hblock]
  · next hnext => exact read_insertElement_of_untouched hm b i v a hblock fun hs ha => hnext ⟨ha, hs⟩

/-- The cut value as rule R60 writes it, at every width up to 64. -/
theorem cutToWidth_eq_mask {b : Nat} (hb : b ≤ 64) (v : Word) :
    cutToWidth b v = if b = 64 then v else v &&& mask b := by
  unfold cutToWidth
  by_cases h : b = 64
  · rw [if_neg (by omega), if_pos h]
  · rw [if_pos (by omega), if_neg h]

/-- Settles O24: the inserter's law, bit by bit. -/
theorem setOrsTheElementsBits : Obligations.SetOrsTheElementsBits := by
  intro s index value ⟨hinv, hu⟩ hi
  obtain ⟨hwidth, -, -⟩ := hinv.vector hu
  exact ⟨_, execSet_next hu hi, bit_insertElement hinv.storeWf hwidth index.toNat value⟩

/-- Settles O25: the inserter's law, word by word. -/
theorem setStoresOnlyToItsWords : Obligations.SetStoresOnlyToItsWords := by
  intro s index value ⟨hinv, hu⟩ hi blen v
  obtain ⟨hwidth, -, -⟩ := hinv.vector hu
  have hcut : cutToWidth blen value = v := cutToWidth_eq_mask hwidth value
  have hread := read_insertElement hinv.storeWf blen index.toNat value
  rw [hcut] at hread
  refine ⟨_, execSet_next hu hi, fun h0 => if_pos h0, fun _ => ⟨?block, fun hs => ?next, fun a hblock hnext => ?other⟩⟩
  case block => exact (hread _).trans (if_pos rfl)
  case next => rw [hread, if_neg (by omega), if_pos ⟨rfl, hs⟩]
  case other => exact read_insertElement_of_untouched hinv.storeWf _ _ _ _ hblock hnext

/-! ### One 128-bit merge -/

/-- R68's number `m = v * 2^offset`, `v` being the value cut to `b` bits. -/
def mergeNumber (b o : Nat) (value : Word) : BitVec 128 := BitVec.ofNat 128 (value.toNat % 2 ^ b * 2 ^ o)

theorem getLsbD_mergeNumber (b o : Nat) (value : Word) (j : Nat) :
    (mergeNumber b o value).getLsbD j = (decide (j < 128) && decide (o ≤ j) && (cutToWidth b value).getLsbD (j - o)) := by
  rw [mergeNumber, BitVec.getLsbD_ofNat, Nat.testBit_mul_two_pow, Nat.testBit_mod_two_pow, BitVec.testBit_toNat,
    getLsbD_cutToWidth, Bool.and_assoc]

/-- `m[63:0]` is the part of the cut value that stays in `W[block]`. -/
theorem mergeNumber_low (b o : Nat) (value : Word) :
    (mergeNumber b o value).extractLsb' 0 64 = cutToWidth b value <<< o := by
  apply BitVec.eq_of_getLsbD_eq
  intro j hj
  rw [BitVec.getLsbD_extractLsb', Nat.zero_add, getLsbD_mergeNumber, BitVec.getLsbD_shiftLeft]
  by_cases ho : o ≤ j
  · simp [hj, ho, show j < 128 by omega, show ¬ j < o by omega]
  · simp [ho, show j < o by omega]

/-- `m[127:64]` is the part that goes over into `W[block+1]`. -/
theorem mergeNumber_high {o : Nat} (ho : o < 64) (b : Nat) (value : Word) :
    (mergeNumber b o value).extractLsb' 64 64 = cutToWidth b value >>> (64 - o) := by
  apply BitVec.eq_of_getLsbD_eq
  intro j hj
  rw [BitVec.getLsbD_extractLsb', getLsbD_mergeNumber, BitVec.getLsbD_ushiftRight,
    show 64 + j - o = 64 - o + j by omega]
  simp [hj, show 64 + j < 128 by omega, show o ≤ 64 + j by omega]

/-- Nothing goes over into the next word unless the element straddles. -/
theorem cutToWidth_ushiftRight_eq_zero {b i : Nat} (hs : ¬ straddles b i = true) (v : Word) :
    cutToWidth b v >>> (64 - offsetOf b i) = 0 := by
  rw [straddles_iff] at hs
  apply BitVec.eq_of_getLsbD_eq
  intro j _
  rw [BitVec.getLsbD_ushiftRight, getLsbD_cutToWidth, decide_eq_false (by omega), Bool.false_and]
  simp

/-- The inserter is the merge of R68. A high half of 0 comes of an element that does not straddle, or of a value with no bit
that goes over; ORing it in changes nothing either way. -/
theorem read_insertElement_eq_merge {m : Memory} (hm : Memory.wf m) (b i : Nat) (v : Word) (a : Nat) :
    Memory.read (insertElement m b i v) a =
      if a = blockOf b i then Memory.read m a ||| (mergeNumber b (offsetOf b i) v).extractLsb' 0 64
      else if a = blockOf b i + 1 ∧ (mergeNumber b (offsetOf b i) v).extractLsb' 64 64 ≠ 0 then
        Memory.read m a ||| (mergeNumber b (offsetOf b i) v).extractLsb' 64 64
      else Memory.read m a := by
  rw [mergeNumber_low, mergeNumber_high (offsetOf_lt b i), read_insertElement hm]
  by_cases hs : straddles b i = true
  · by_cases hhigh : cutToWidth b v >>> (64 - offsetOf b i) = 0
    · simp [hs, hhigh]
    · simp only [hs, hhigh, ne_eq, not_false_eq_true]
  · simp [hs, cutToWidth_ushiftRight_eq_zero hs]

/-- Settles O27: `pos / 64` and `pos % 64` are the position decoder's `block` and `offset`. -/
theorem setIsOne128BitMerge : Obligations.SetIsOne128BitMerge := by
  intro s index value ⟨hinv, hu⟩ hi pos merged
  exact ⟨_, execSet_next hu hi, read_insertElement_eq_merge hinv.storeWf s.blen.toNat index.toNat value⟩

/-! ### SET and GET -/

/-- Settles O26: what the extractor reads of the inserter's store. -/
theorem getAfterSetReturnsTheOr : Obligations.GetAfterSetReturnsTheOr := by
  intro s i value ⟨hinv, hu⟩ hi
  obtain ⟨hwidth, -, -⟩ := hinv.vector hu
  have hset : exec (.set i value) s = .next (State.respond { s with
    store := insertElement s.store s.blen.toNat i.toNat value } .ok 0 []) := execSet_next hu hi
  have hread (j : Word) := extractElement_insertElement hinv.storeWf hwidth i.toNat value j.toNat
  refine ⟨_, _, hset, execGet_next hu hi, ?_, fun j hne hj => ⟨_, execGet_next hu hj, ?_⟩⟩
  · rw [ofNat_mod_eq_cutToWidth, ← (hread i).trans (if_pos rfl)]
    exact execGet_next hu hi
  · rw [← (hread j).trans (if_neg (BitVec.toNat_ne.1 hne))]
    exact execGet_next hu hj

/-- The inserter's two orders store the same bits, for every two elements. -/
theorem insertElement_comm {m : Memory} (hm : Memory.wf m) {b : Nat} (hb : b ≤ 64) (i j : Nat) (v w : Word) :
    insertElement (insertElement m b i v) b j w = insertElement (insertElement m b j w) b i v := by
  have hmi : Memory.wf (insertElement m b i v) := wf_insertElement hm b i v
  have hmj : Memory.wf (insertElement m b j w) := wf_insertElement hm b j w
  refine Memory.ext_bit (wf_insertElement hmi b j w) (wf_insertElement hmj b i v) fun g => ?_
  rw [bit_insertElement hmi hb, bit_insertElement hm hb, bit_insertElement hmj hb, bit_insertElement hm hb, Bool.or_right_comm]

/-- Settles O28: both orders complete and answer alike, and the inserter commutes. -/
theorem setsCommute : Obligations.SetsCommute := by
  intro s i j a b ⟨hinv, hu⟩ hi hj
  obtain ⟨hwidth, -, -⟩ := hinv.vector hu
  have hcomm := insertElement_comm hinv.storeWf hwidth i.toNat j.toNat a b
  refine ⟨_, execAll_set_set hu hi hj a b, hcomm ▸ execAll_set_set hu hj hi b a, ?_⟩
  rintro rfl
  have hwf := wf_insertElement hinv.storeWf s.blen.toNat i.toNat a
  have hread : extractElement (insertElement (insertElement s.store s.blen.toNat i.toNat a) s.blen.toNat i.toNat b)
      s.blen.toNat i.toNat =
        extractElement s.store s.blen.toNat i.toNat ||| cutToWidth s.blen.toNat a ||| cutToWidth s.blen.toNat b := by
    rw [extractElement_insertElement hwf hwidth, if_pos rfl, extractElement_insertElement hinv.storeWf hwidth, if_pos rfl]
  refine ⟨_, execGet_next hu hi, ?_⟩
  rw [ofNat_mod_eq_cutToWidth, ofNat_mod_eq_cutToWidth, ← hread]
  exact execGet_next hu hi

/-! ### Between rewrites the store only gains 1 bits -/

/-- From `s` to `t` the registers and the mark stay and no 1 bit of the store is lost. -/
structure GainsOnes (s t : State) : Prop where
  num : t.num = s.num
  blen : t.blen = s.blen
  unusable : t.unusable = s.unusable
  bits : ∀ g, s.store.bit g = true → t.store.bit g = true

theorem GainsOnes.refl (s : State) : GainsOnes s s := ⟨rfl, rfl, rfl, fun _ h => h⟩

theorem GainsOnes.trans {s t u : State} (h : GainsOnes s t) (h' : GainsOnes t u) : GainsOnes s u :=
  ⟨h'.num.trans h.num, h'.blen.trans h.blen, h'.unusable.trans h.unusable, fun g hg => h'.bits g (h.bits g hg)⟩

/-- The one bound on an operand is on a rewriter's. -/
theorem wellFormed_of_not_rewrites {i : Instr} (hi : ¬ Rewrites i) : i.wellFormed = true := by
  cases i with
  | newFromArray values => exact absurd (.inr (.inr ⟨values, rfl⟩)) hi
  | _ => rfl

/-- An operation that is no rewriter reads, and keeps the store, or is a SET, and ORs into it. -/
theorem Completes.gainsOnes {i : Instr} {s t : State} (h : Completes i s t) (hi : ¬ Rewrites i) (hs : s.Usable) :
    GainsOnes s t := by
  obtain ⟨hinv, hu⟩ := hs
  cases h with
  | reads d p _ _ => exact ⟨rfl, rfl, rfl, fun _ hg => hg⟩
  | sets index value _ _ _ =>
    obtain ⟨hwidth, -, -⟩ := hinv.vector hu
    refine ⟨rfl, rfl, rfl, fun g hg => ?_⟩
    exact (bit_insertElement hinv.storeWf hwidth index.toNat value g).trans (by rw [hg, Bool.true_or])
  | makes num blen m _ hrw => exact absurd hrw hi
  | fails e _ hrw => exact absurd (hrw.imp_right .inr) hi
  | loses bytes hrw e _ => exact absurd (.inr (.inl ⟨bytes, hrw⟩)) hi

/-- The same of a sequence of operations, each of which leaves a usable state to the next. -/
theorem execAll_gainsOnes {l : List Instr} (hl : ∀ i ∈ l, ¬ Rewrites i) {s t : State} (hs : s.Usable)
    (h : execAll l s = .next t) : GainsOnes s t := by
  induction l generalizing s with
  | nil => cases h; exact .refl _
  | cons i is ih =>
    obtain ⟨hi, his⟩ := List.forall_mem_cons.1 hl
    rw [execAll] at h
    split at h
    · next u hx =>
      have hc : Completes i s u := exec_completes (wellFormed_of_not_rewrites hi) hx
      have hgain : GainsOnes s u := hc.gainsOnes hi hs
      exact hgain.trans (ih his ⟨hc.inv hs.1, hgain.unusable.trans hs.2⟩ h)
    all_goals cases h

/-- A word is a bitwise superset of another when it has every 1 bit of it. -/
theorem and_eq_left_of_getLsbD {x y : Word} (h : ∀ k < 64, x.getLsbD k = true → y.getLsbD k = true) : x &&& y = x := by
  apply BitVec.eq_of_getLsbD_eq
  intro k hk
  rw [BitVec.getLsbD_and]
  exact Bool.and_eq_left_iff_imp.2 (h k hk)

theorem GainsOnes.and_read {s t : State} (h : GainsOnes s t) (a : Nat) :
    Memory.read s.store a &&& Memory.read t.store a = Memory.read s.store a := by
  refine and_eq_left_of_getLsbD fun k hk => ?_
  rw [← Memory.bit_word _ _ _ hk, ← Memory.bit_word _ _ _ hk]
  exact h.bits _

theorem GainsOnes.and_extractElement {s t : State} (h : GainsOnes s t) {b : Nat} (hb : b ≤ 64) (i : Nat) :
    extractElement s.store b i &&& extractElement t.store b i = extractElement s.store b i := by
  refine and_eq_left_of_getLsbD fun k _ hx => ?_
  rw [getLsbD_extractElement _ hb, Bool.and_eq_true] at hx ⊢
  exact hx.imp_right (h.bits _)

/-- Settles O30: no operation of the sequence rewrites, so no 1 bit is lost, and words and elements are made of bits. -/
theorem storeOnlyGainsOnes : Obligations.StoreOnlyGainsOnes := by
  intro s t l hs hl h
  have hno : ∀ i ∈ l, ¬ Rewrites i := fun i hi => by
    rcases hl i hi with ⟨index, value, rfl⟩ | ⟨index, rfl⟩ | rfl | rfl | rfl <;> simp [Rewrites]
  have hgain : GainsOnes s t := execAll_gainsOnes hno hs h
  obtain ⟨hinv, hu⟩ := hs
  obtain ⟨hwidth, -, -⟩ := hinv.vector hu
  refine ⟨hgain.and_read, fun index hi => ⟨_, _, execGet_next hu hi, execGet_next (hgain.unusable.trans hu) ?_, ?_⟩⟩
  · exact hgain.num ▸ hi
  · rw [hgain.blen]
    exact hgain.and_extractElement hwidth index.toNat

end Sys2Proof.Machine
end

section
/-! SUPPORT. NEW, NEWFROMARRAY, BLEN and NUM (42_construction.md rules R70 to R81): their outcomes, width inference by its
least bounds, and the elements and the SETs that NEWFROMARRAY stands for. -/

namespace Sys2Proof.Machine

open Sys2Proof

/-- The word count of R72 with its numbers written in. -/
theorem wordsNeeded_eq (num blen : Nat) : wordsNeeded num blen = (num * blen + 63) / 64 := rfl

/-- An index below 2^64 is held by a word unchanged. -/
theorem toNat_ofNat_word {i : Nat} (h : i < 2 ^ 64) : (BitVec.ofNat 64 i).toNat = i := by
  rw [BitVec.toNat_ofNat, Nat.mod_eq_of_lt h]

/-! ### NEW, BLEN and NUM -/

/-- Settles O31: NEW's three outcomes, in the order it tests for them. -/
theorem newMakesAZeroVectorOrChangesNothing : Obligations.NewMakesAZeroVectorOrChangesNothing := by
  intro s num blen
  refine ⟨fun hwide => ?_, fun hwidth hlarge => ?_, fun hwidth hfit => exec_new_next hwidth hfit⟩
  · rw [exec, execNew_eq, if_pos hwide]; rfl
  · rw [exec, execNew_eq, if_neg (Nat.not_lt.2 hwidth), wordsNeeded_eq, if_pos hlarge]; rfl

/-- A NEW that answers OK has made the all-zero vector, at a legal width. -/
theorem exec_new_ok {s t : State} {num : Word} {blen : Byte} (h : exec (.new num blen) s = .next t)
    (hok : t.responses = s.responses ++ [{ status := .ok, data := 0, payload := [] }]) :
    blen.toNat ≤ 64 ∧ t = (s.makeVector num blen []).respond .ok 0 [] := by
  rw [exec, execNew_eq] at h
  split_ifs at h with hwide hlarge <;> cases h
  · simp at hok
  · simp at hok
  · exact ⟨Nat.not_lt.1 hwide, rfl⟩

/-- Settles O32: the vector NEW makes has an empty store, and every element of that is 0. -/
theorem getAfterNewReadsZero : Obligations.GetAfterNewReadsZero := by
  intro s t num blen h hok
  obtain ⟨hwidth, rfl⟩ := exec_new_ok h hok
  refine ⟨rfl, rfl, fun a _ => rfl, fun i hi => ?_⟩
  rw [← extractElement_nil hwidth i.toNat]
  exact execGet_next rfl hi

/-- Settles O39: both accessors answer at once in a usable state, whose width is at most 64. -/
theorem accessorsReadTheRegisters : Obligations.AccessorsReadTheRegisters := by
  intro s ⟨hinv, hu⟩
  obtain ⟨hwidth, -, -⟩ := hinv.vector hu
  have hanswer (d : Word) : s.answerRead d [] = .next (s.respond .ok d []) := by
    rw [answerRead_eq, hu, if_neg Bool.false_ne_true]
  rw [BitVec.ofNat_toNat]
  refine ⟨hanswer _, ?_, hanswer _⟩
  rw [BitVec.toNat_setWidth_of_le (by norm_num)]
  exact hwidth

/-! ### Width inference -/

/-- `dim` is the least bound above every value (R74). -/
theorem inferDim_le_iff (values : List Word) (d : Nat) : inferDim values ≤ d ↔ ∀ v ∈ values, v.toNat < d := by
  obtain ⟨-, hlt, hmax⟩ := foldl_dimStep 0 values
  refine ⟨fun h v hv => Nat.lt_of_lt_of_le (hlt v hv) h, fun h => ?_⟩
  rcases hmax with hzero | ⟨v, hv, hsucc⟩
  · exact hzero.trans_le d.zero_le
  · exact hsucc.trans_le (h v hv)

theorem inferDim_perm {values values' : List Word} (h : values.Perm values') : inferDim values = inferDim values' :=
  eq_of_forall_ge_iff fun d => by simp only [inferDim_le_iff, h.mem_iff]

/-- Settles O34: the loop ends with one more than some value, and above every value. -/
theorem dimIsOneMoreThanTheGreatestValue : Obligations.DimIsOneMoreThanTheGreatestValue := by
  refine ⟨rfl, fun values hne => ?_, fun _ _ => inferDim_perm⟩
  obtain ⟨-, hlt, hmax⟩ := foldl_dimStep 0 values
  rcases hmax with hzero | ⟨v, hv, hsucc⟩
  · obtain ⟨u, hu⟩ := List.exists_mem_of_ne_nil values hne
    exact absurd (hlt u hu) (by omega)
  · exact ⟨v, hv, hsucc, fun u hu => Nat.le_of_lt_succ (hsucc ▸ hlt u hu :)⟩

/-- The inferred width is the least one at which every value fits (R75). -/
theorem inferWidth_le_iff (values : List Word) (b : Nat) : inferWidth values ≤ b ↔ ∀ v ∈ values, v.toNat < 2 ^ b := by
  obtain ⟨-, hfits, hleast⟩ := inferWidth_spec values
  exact ⟨fun h v hv => (hfits v hv).trans_le (Nat.pow_le_pow_right (by norm_num) h), hleast b⟩

theorem inferWidth_le_iff_inferDim (values : List Word) (b : Nat) : inferWidth values ≤ b ↔ inferDim values ≤ 2 ^ b := by
  rw [inferWidth_le_iff, inferDim_le_iff]

/-- The number whose bits R75 counts fits in `b` bits from the inferred width on and not before. -/
theorem inferWidth_le_iff_pred_lt (values : List Word) (b : Nat) : inferWidth values ≤ b ↔ inferDim values - 1 < 2 ^ b := by
  have hpos := Nat.two_pow_pos b
  rw [inferWidth_le_iff_inferDim]
  omega

/-- An OR of words fits in `b` bits exactly when each of them does. -/
theorem foldl_or_fits (b : Nat) (a : Word) (values : List Word) :
    (values.foldl (· ||| ·) a).toNat < 2 ^ b ↔ a.toNat < 2 ^ b ∧ ∀ v ∈ values, v.toNat < 2 ^ b := by
  induction values generalizing a with
  | nil => simp
  | cons v vs ih =>
    have hor : (a ||| v).toNat < 2 ^ b ↔ a.toNat < 2 ^ b ∧ v.toNat < 2 ^ b := by
      rw [BitVec.toNat_or]
      exact ⟨fun h => ⟨Nat.left_le_or.trans_lt h, Nat.right_le_or.trans_lt h⟩, fun h => Nat.or_lt_two_pow h.1 h.2⟩
    rw [List.foldl_cons, ih, hor, and_assoc, List.forall_mem_cons]

/-- Settles O35: each form has the same upper bounds as the inferred width. -/
theorem inferredWidthIsTheBitLength : Obligations.InferredWidthIsTheBitLength := by
  intro values w
  have hshift (b : Nat) : (inferDim values - 1) / 2 ^ b = 0 ↔ w ≤ b :=
    (Nat.div_eq_zero_iff_lt (Nat.two_pow_pos b)).trans (inferWidth_le_iff_pred_lt values b).symm
  refine ⟨(inferWidth_spec values).1, fun h => Nat.le_zero.1 ((inferWidth_le_iff_inferDim values 0).2 h),
    (hshift w).2 le_rfl, fun b => (hshift b).1,
    eq_of_forall_ge_iff fun b => ?clog, eq_of_forall_ge_iff fun b => ?size, eq_of_forall_ge_iff fun b => ?or⟩
  case clog => rw [Nat.clog_le_iff_le_pow (by norm_num), inferWidth_le_iff_inferDim]
  case size => rw [Nat.size_le, inferWidth_le_iff_pred_lt]
  case or =>
    rw [Nat.size_le, foldl_or_fits, inferWidth_le_iff]
    simp

/-- A width at which every value fits, and that is 0 or is needed by one of them, is the inferred one. -/
theorem inferWidth_eq {values : List Word} {w : Nat} (hfits : ∀ v ∈ values, v.toNat < 2 ^ w)
    (hneeded : w = 0 ∨ ∃ v ∈ values, 2 ^ (w - 1) ≤ v.toNat) : inferWidth values = w := by
  have hle : inferWidth values ≤ w := (inferWidth_le_iff values w).2 hfits
  rcases hneeded with rfl | ⟨v, hv, hlarge⟩
  · exact Nat.le_zero.1 hle
  · by_contra hne
    exact Nat.not_lt.2 hlarge ((inferWidth_le_iff values (w - 1)).1 (by omega) v hv)

/-! ### NEWFROMARRAY -/

/-- NEWFROMARRAY of values that fit the block completes, with what the load phase stores. -/
theorem exec_newFromArray_next {values : List Word} {s : State}
    (hfit : wordsNeeded values.length (inferWidth values) ≤ s.cfg.depth) :
    exec (.newFromArray values) s =
      .next ((s.makeVector (BitVec.ofNat 64 values.length) (BitVec.ofNat 8 (inferWidth values))
        (loadElements (inferWidth values) 0 values [])).respond .ok 0 []) := by
  rw [exec, execNewFromArray_eq, if_neg (Nat.not_lt.2 hfit)]

/-- Settles O37: the capacity check fails first, and raising an error changes nothing else. -/
theorem newFromArrayTooLargeChangesNothing : Obligations.NewFromArrayTooLargeChangesNothing := by
  intro s values hlarge
  rw [exec, execNewFromArray_eq, wordsNeeded_eq, if_pos hlarge]
  rfl

/-- Settles O36: the width of the statement is the inferred one, and reading after the load phase gives the values. -/
theorem newFromArrayHoldsItsValues : Obligations.NewFromArrayHoldsItsValues := by
  intro s values w _ hlen hfits hneeded hfit
  obtain rfl := inferWidth_eq hfits hneeded
  obtain ⟨hnum, hblen⟩ := toNat_arrayRegisters hlen
  refine ⟨loadElements (inferWidth values) 0 values [], exec_newFromArray_next hfit, hnum, hblen, fun i hi => ?_⟩
  have hindex : (BitVec.ofNat 64 i).toNat = i := toNat_ofNat_word (hi.trans hlen)
  have hread : extractElement (loadElements (inferWidth values) 0 values []) (BitVec.ofNat 8 (inferWidth values)).toNat
      (BitVec.ofNat 64 i).toNat = values[i] := by
    rw [hblen, hindex, extract_loadElements (inferWidth_spec values).1 hfits, List.getD_eq_getElem _ _ hi]
  rw [← hread]
  exact execGet_next rfl (by rw [hindex, hnum]; exact hi)

/-- Each value with its index, from index `i` on: the operands of the SETs of R73's loop. -/
def indexedValues (i : Nat) (values : List Word) : List (Word × Word) :=
  (values.zipIdx i).map fun p => (BitVec.ofNat 64 p.2, p.1)

theorem indexedValues_cons (i : Nat) (v : Word) (vs : List Word) :
    indexedValues i (v :: vs) = (BitVec.ofNat 64 i, v) :: indexedValues (i + 1) vs := rfl

/-- Every index is that of a value. -/
theorem toNat_lt_of_mem_indexedValues {values : List Word} {p : Word × Word} (hp : p ∈ indexedValues 0 values) :
    p.1.toNat < values.length := by
  obtain ⟨⟨v, i⟩, hi, rfl⟩ := List.mem_map.1 hp
  have hlt : i < values.length := by simpa using List.snd_lt_add_of_mem_zipIdx hi
  exact (Nat.mod_le i (2 ^ 64)).trans_lt hlt

/-- The load phase stores what the SETs in index order store (R76). -/
theorem insertElements_indexedValues (b i : Nat) (vs : List Word) (m : Memory) (h : i + vs.length ≤ 2 ^ 64) :
    insertElements b (indexedValues i vs) m = loadElements b i vs m := by
  induction vs generalizing i m with
  | nil => rfl
  | cons v vs ih =>
    rw [List.length_cons] at h
    have hindex : (BitVec.ofNat 64 i).toNat = i := toNat_ofNat_word (by omega)
    rw [indexedValues_cons, insertElements, hindex, ih _ _ (by omega), loadElements]

/-- Settles O38: NEW completes at the inferred width, then the SETs do, and they store what the load phase stores. -/
theorem newFromArrayIsNewThenSets : Obligations.NewFromArrayIsNewThenSets := by
  intro s values _ hlen hfit
  obtain ⟨hnum, hblen⟩ := toNat_arrayRegisters hlen
  have hnew : exec (.new (BitVec.ofNat 64 values.length) (BitVec.ofNat 8 (inferWidth values))) s = _ :=
    exec_new_next (hblen.trans_le (inferWidth_spec values).1) (by rw [hnum, hblen]; exact hfit)
  obtain ⟨u, hsets, hu, hunum, hublen, hustore⟩ :=
    execAll_sets (s := (s.makeVector (BitVec.ofNat 64 values.length) (BitVec.ofNat 8 (inferWidth values)) []).respond .ok 0 [])
      rfl (l := indexedValues 0 values) fun p hp => (toNat_lt_of_mem_indexedValues hp).trans_eq hnum.symm
  rw [indexedValues, List.map_map] at hsets
  refine ⟨_, u, exec_newFromArray_next hfit, (execAll_cons_of_next hnew).trans hsets, hunum.symm, hublen.symm, ?_, hu.symm⟩
  rw [hustore, State.respond_blen, State.makeVector_blen, hblen]
  exact (insertElements_indexedValues _ 0 values [] (by omega)).symm

end Sys2Proof.Machine
end

section
/-! SUPPORT. ENCODE and DECODE (43_serializer.md rules R85 to R100): the bytes of the wire format by their offsets, the round
trip in both directions, and DECODE's checks in the order of the stream. -/

namespace Sys2Proof.Machine

open Sys2Proof

/-! ### The bytes of the wire format -/

/-- Byte `k` of `le64` (R86). -/
theorem getElem?_le64 (v : Word) {k : Nat} (hk : k < 8) : (le64 v)[k]? = some (BitVec.ofNat 8 (v.toNat / 2 ^ (8 * k))) := by
  rw [le64, List.getElem?_map, List.getElem?_range hk, Option.map_some, BitVec.extractLsb', Nat.shiftRight_eq_div_pow]

/-- Word `a` of a list takes the eight bytes from `8a` on. -/
theorem getElem?_flatMap_le64 {ws : List Word} {a : Nat} (ha : a < ws.length) {k : Nat} (hk : k < 8) :
    (ws.flatMap le64)[8 * a + k]? = (le64 ws[a])[k]? := by
  induction ws generalizing a with
  | nil => exact absurd ha (Nat.not_lt_zero a)
  | cons w ws ih =>
    rw [List.flatMap_cons]
    cases a with
    | zero =>
      rw [Nat.mul_zero, Nat.zero_add]
      exact List.getElem?_append_left hk
    | succ a =>
      have hskip : 8 * (a + 1) + k - (le64 w).length = 8 * a + k := by rw [length_le64]; omega
      rw [List.getElem?_append_right (by rw [length_le64]; omega), hskip]
      exact ih (Nat.lt_of_succ_lt_succ ha)

theorem length_flatMap_le64 (ws : List Word) : (ws.flatMap le64).length = 8 * ws.length := by
  simp [List.length_flatMap, Nat.mul_comm]

/-- The count stands at offset 1 (R89). -/
theorem getElem?_wireBytes_count (v : EncodedVector) {k : Nat} (hk : k < 8) :
    (wireBytes v)[1 + k]? = (le64 (BitVec.ofNat 64 v.words.length))[k]? := by
  rw [wireBytes_eq, Nat.add_comm, List.getElem?_cons_succ]
  exact List.getElem?_append_left hk

/-- From offset 9 on stand the words, and after them the registers with their tags (R89). -/
theorem drop_wireBytes (v : EncodedVector) :
    (wireBytes v).drop 9 = v.words.flatMap le64 ++ (0x02 :: (le64 v.num ++ [0x03, v.blen])) := by
  rw [wireBytes_eq, List.drop_succ_cons]
  exact List.drop_left' (length_le64 _)

theorem getElem?_wireBytes_words (v : EncodedVector) {a : Nat} (ha : a < v.words.length) {k : Nat} (hk : k < 8) :
    (wireBytes v)[9 + 8 * a + k]? = (le64 v.words[a])[k]? := by
  rw [Nat.add_assoc, ← List.getElem?_drop, drop_wireBytes,
    List.getElem?_append_left (by rw [length_flatMap_le64]; omega), getElem?_flatMap_le64 ha hk]

theorem getElem?_wireBytes_registers (v : EncodedVector) (j : Nat) :
    (wireBytes v)[9 + 8 * v.words.length + j]? = (0x02 :: (le64 v.num ++ [0x03, v.blen]))[j]? := by
  rw [Nat.add_assoc, ← List.getElem?_drop, drop_wireBytes,
    List.getElem?_append_right (by rw [length_flatMap_le64]; omega), length_flatMap_le64, Nat.add_sub_cancel_left]

/-! ### ENCODE -/

/-- The three fields that ENCODE writes of a state (R90). -/
def State.encodedVector (s : State) : EncodedVector :=
  { words := Memory.words s.store s.nwords, num := s.num, blen := s.blen }

theorem State.encoding_eq (s : State) : s.encoding = wireBytes s.encodedVector := rfl

@[simp] theorem State.length_words_encodedVector (s : State) : s.encodedVector.words.length = s.nwords :=
  Memory.length_words _ _

theorem State.getElem_words_encodedVector (s : State) {a : Nat} (ha : a < s.encodedVector.words.length) :
    s.encodedVector.words[a] = Memory.read s.store a := by
  simp [State.encodedVector, Memory.words]

theorem exec_encode_next {s : State} (hu : s.unusable = false) :
    exec .encode s = .next (s.respond .ok (BitVec.ofNat 64 (8 * s.nwords + 20)) s.encoding) := by
  rw [exec, execEncode, answerRead_eq, hu, if_neg Bool.false_ne_true, length_encoding]

/-- The word count of a usable state can be written in the count field: it is at most DEPTH, which R4 bounds. -/
theorem State.Usable.nwords_le {s : State} (hs : s.Usable) : s.nwords ≤ 2 ^ 57 := by
  obtain ⟨hinv, hu⟩ := hs
  obtain ⟨-, hfit, -⟩ := hinv.vector hu
  exact hfit.trans hinv.cfgOk.2

/-- Settles O40: each field of the encoded vector, at its offset. -/
theorem encodeLayout : Obligations.EncodeLayout := by
  intro s hs n
  have hn : s.encodedVector.words.length = n := s.length_words_encodedVector
  have hcount : (BitVec.ofNat 64 s.encodedVector.words.length).toNat = n :=
    hn ▸ toNat_ofNat_word (by have := hs.nwords_le; rw [s.length_words_encodedVector]; omega)
  have hregisters (j : Nat) : s.encoding[9 + 8 * n + j]? = _ := hn ▸ getElem?_wireBytes_registers s.encodedVector j
  refine ⟨s.encoding, exec_encode_next hs.2, length_encoding s, rfl, fun k hk => ?count, fun a ha k hk => ?words,
    hregisters 0, fun k hk => ?num, ?blenTag, ?blen⟩
  case count => rw [State.encoding_eq, getElem?_wireBytes_count _ hk, getElem?_le64 _ hk, hcount]
  case words =>
    rw [← hn] at ha
    rw [State.encoding_eq, getElem?_wireBytes_words _ ha hk, getElem?_le64 _ hk, s.getElem_words_encodedVector]
  case num =>
    rw [show 10 + 8 * n + k = 9 + 8 * n + (k + 1) by omega, hregisters, List.getElem?_cons_succ,
      List.getElem?_append_left hk, getElem?_le64 _ hk]
    rfl
  case blenTag => exact (congrArg (s.encoding[·]?) (by omega)).trans (hregisters 9)
  case blen => exact (congrArg (s.encoding[·]?) (by omega)).trans (hregisters 10)

/-! ### The round trip -/

theorem exec_decode_next {bytes rest : List Byte} {s : State} {v : EncodedVector}
    (h : parseVector s.cfg.depth bytes = .ok (v, rest)) :
    exec (.decode bytes) s = .next ((s.makeVector v.num v.blen (Memory.ofWords v.words)).respond .ok 0 []) :=
  execDecode_ok h

/-- Every DEPTH can be counted to in 64 bits (R4). -/
theorem depth_lt_of_ok {c : Config} (hc : c.ok) : c.depth < 2 ^ 64 := hc.2.trans_lt (by norm_num)

/-- DECODE reads back the three fields of a usable state, whatever bytes follow, in every block that has room for them (R96,
R99). -/
theorem State.Usable.parseVector_encoding {s : State} (hs : s.Usable) {depth : Nat} (hd : depth < 2 ^ 64)
    (hfit : s.nwords ≤ depth) (rest : List Byte) : parseVector depth (s.encoding ++ rest) = .ok (s.encodedVector, rest) := by
  obtain ⟨hinv, hu⟩ := hs
  obtain ⟨hwidth, -, -⟩ := hinv.vector hu
  have hlen := s.length_words_encodedVector
  rw [State.encoding_eq, parseVector_wireBytes s.encodedVector rest hd (hlen ▸ hfit), if_pos ⟨hwidth, hlen⟩]

/-- The words ENCODE writes are the whole store of a usable state. -/
theorem State.Usable.ofWords_encodedVector {s : State} (hs : s.Usable) :
    Memory.ofWords s.encodedVector.words = s.store := by
  obtain ⟨hinv, hu⟩ := hs
  obtain ⟨-, -, hcells⟩ := hinv.vector hu
  exact Memory.ofWords_words hinv.storeWf hcells

/-- Settles O41: the payload-out is read back as the fields of either state. -/
theorem encodeIsInjective : Obligations.EncodeIsInjective := by
  intro s s' d d' out hs hs' h h'
  have hout : out = s.encoding := payload_eq_of_answerRead h
  have hout' : out = s'.encoding := payload_eq_of_answerRead h'
  have hparse := hs.parseVector_encoding (depth := 2 ^ 57) (by norm_num) hs.nwords_le []
  have hparse' := hs'.parseVector_encoding (depth := 2 ^ 57) (by norm_num) hs'.nwords_le []
  rw [← hout] at hparse
  rw [← hout', hparse] at hparse'
  have hfields : s.encodedVector = s'.encodedVector := congrArg Prod.fst (Except.ok.inj hparse')
  refine ⟨congrArg EncodedVector.num hfields, congrArg EncodedVector.blen hfields, ?_⟩
  rw [← hs.ofWords_encodedVector, hfields, hs'.ofWords_encodedVector]

/-- Settles O43: DECODE loads the fields it reads back, and their words make the same store. -/
theorem decodeOfEncodeRestoresTheVector : Obligations.DecodeOfEncodeRestoresTheVector := by
  intro s s' hs hc hfit
  have hdepth : s'.cfg.depth < 2 ^ 64 := depth_lt_of_ok hc
  refine ⟨_, _, exec_encode_next hs.2, fun rest => ?_⟩
  have hdecode := exec_decode_next (hs.parseVector_encoding hdepth hfit rest)
  rw [hs.ofWords_encodedVector] at hdecode
  exact hdecode

/-- A state that holds the three fields of a consistent encoded vector encodes as that vector. -/
theorem State.encodedVector_of_holds {s : State} {v : EncodedVector} (hnum : s.num = v.num) (hblen : s.blen = v.blen)
    (hstore : s.store = Memory.ofWords v.words) (hlen : v.words.length = wordsNeeded v.num.toNat v.blen.toNat) :
    s.encodedVector = v := by
  rw [State.encodedVector, State.nwords, hnum, hblen, hstore, ← hlen, Memory.words_ofWords]

theorem parseVector_error_ne_ok {depth : Nat} {bytes : List Byte} {e : Status} (h : parseVector depth bytes = .error e) :
    e ≠ .ok := by
  rcases parseVector_error h with rfl | rfl <;> decide

/-- A DECODE that answers OK has loaded the fields it has read. -/
theorem exec_decode_ok {s t : State} {bytes : List Byte} (h : exec (.decode bytes) s = .next t)
    (hok : t.responses = s.responses ++ [{ status := .ok, data := 0, payload := [] }]) :
    ∃ v rest, parseVector s.cfg.depth bytes = .ok (v, rest) ∧
      t = (s.makeVector v.num v.blen (Memory.ofWords v.words)).respond .ok 0 [] := by
  cases hp : parseVector s.cfg.depth bytes with
  | ok r => exact ⟨r.1, r.2, rfl, Host.Outcome.next.inj (h.symm.trans (exec_decode_next hp))⟩
  | error e =>
    cases h.symm.trans (execDecode_error hp)
    exact absurd (by simpa using hok) (parseVector_error_ne_ok hp)

/-- Settles O44: what DECODE has read is the canonical encoding of the fields it loads, which are a vector. -/
theorem acceptedPayloadIsTheCanonicalEncoding : Obligations.AcceptedPayloadIsTheCanonicalEncoding := by
  intro s t bytes _ h hok
  obtain ⟨v, rest, hp, rfl⟩ := exec_decode_ok h hok
  obtain ⟨hbytes, hfit, hwidth, hlen⟩ := parseVector_ok hp
  refine ⟨⟨hwidth, hlen.symm.trans_le hfit, fun p hp => ?_⟩, _, _, rest, exec_encode_next rfl, ?_⟩
  · have hcell := Memory.mem_ofWordsFrom hp
    rw [State.respond_nwords, State.makeVector_nwords, ← hlen]
    omega
  · rw [State.encoding_eq, State.encodedVector_of_holds rfl rfl rfl hlen, hbytes]

/-! ### What DECODE answers -/

/-- DECODE of `bytes` in `s` answers the error `e` and marks the state unspecified (R95). -/
def DecodeFails (s : State) (bytes : List Byte) (e : Status) : Prop :=
  ∃ t, exec (.decode bytes) s = .next t ∧ t.unusable = true ∧
    t.responses = s.responses ++ [{ status := e, data := 0, payload := [] }]

theorem decodeFails_of_parseVector {s : State} {bytes : List Byte} {e : Status}
    (h : parseVector s.cfg.depth bytes = .error e) : DecodeFails s bytes e :=
  ⟨_, execDecode_error h, rfl, rfl⟩

/-- Settles O45: with three fields that parse, the two checks of R94 decide. -/
theorem decodeChecksWidthAndCount : Obligations.DecodeChecksWidthAndCount := by
  intro s words num blen rest hc hfit bytes
  have hparse := parseVector_wireBytes ⟨words, num, blen⟩ rest (depth_lt_of_ok hc) hfit
  have hbytes : wireBytes ⟨words, num, blen⟩ ++ rest = bytes := by simp [wireBytes, bytes]
  rw [hbytes] at hparse
  refine ⟨fun hbad => ?_, fun hwidth hlen => ?_⟩
  · refine decodeFails_of_parseVector (hparse.trans (if_neg fun ⟨hwidth, hlen⟩ => ?_))
    exact hbad.elim (Nat.not_lt.2 hwidth) (absurd hlen)
  · exact ⟨_, exec_decode_next (hparse.trans (if_pos ⟨hwidth, hlen⟩)), Memory.wf_ofWords words, Memory.read_ofWords words⟩

/-- Settles O47: either the payload parses or it fails, with one of the two statuses. -/
theorem decodeAnswersAndMarksTheState : Obligations.DecodeAnswersAndMarksTheState := by
  intro s bytes
  cases hp : parseVector s.cfg.depth bytes with
  | ok r => exact ⟨_, .ok, exec_decode_next hp, rfl, .inl rfl, by simp, rfl, rfl⟩
  | error e =>
    have hne := parseVector_error_ne_ok hp
    exact ⟨_, e, execDecode_error hp, rfl, .inr (parseVector_error hp), by simp [hne], rfl, rfl⟩

/-- Settles O48: the reading of the payload does not look at the state. -/
theorem decodeDependsOnPayloadAndDepthAlone : Obligations.DecodeDependsOnPayloadAndDepthAlone := by
  intro s s' bytes hdepth
  cases hp : parseVector s.cfg.depth bytes with
  | ok r => exact ⟨_, _, _, exec_decode_next hp, exec_decode_next (hdepth ▸ hp), rfl, rfl, fun _ => ⟨rfl, rfl, rfl⟩⟩
  | error e =>
    exact ⟨_, _, _, execDecode_error hp, execDecode_error (hdepth ▸ hp), rfl, rfl,
      fun hok => absurd hok (parseVector_error_ne_ok hp)⟩

/-! ### The checks in stream order -/

theorem expectTag_of_ne {tag b : Byte} (hb : b ≠ tag) (rest : List Byte) : expectTag tag (b :: rest) = .error .decodeError :=
  if_neg hb

theorem expectWord_short {s : List Byte} (h : s.length < 8) : expectWord s = .error .decodeError := if_pos h

/-- DECODE's reading of what follows `cnt` words: the registers with their tags, and the two checks of R94. -/
def parseRegisters (cnt : Word) (words : List Word) (s : List Byte) : Except Status (EncodedVector × List Byte) := do
  let s ← expectTag 0x02 s
  let (num, s) ← expectWord s
  let s ← expectTag 0x03 s
  let (blen, s) ← expectByte s
  failIf (64 < blen.toNat) .decodeError
  failIf (cnt.toNat != wordsNeeded num.toNat blen.toNat) .decodeError
  return ({ words := words, num := num, blen := blen }, s)

/-- Behind the tag 0x01 and the count, the count is checked, then the words are read, then the registers. -/
theorem parseVector_after_count (depth : Nat) (cnt : Word) (s : List Byte) :
    parseVector depth (0x01 :: le64 cnt ++ s) =
      (failIf (depth < cnt.toNat) .capacity >>= fun _ => expectWords cnt.toNat s >>= fun p => parseRegisters cnt p.1 p.2) := by
  rw [parseVector, List.cons_append, expectTag_cons, ok_bind, expectWord_le64, ok_bind]
  rfl

theorem parseVector_capacity {depth : Nat} {cnt : Word} (h : depth < cnt.toNat) (s : List Byte) :
    parseVector depth (0x01 :: le64 cnt ++ s) = .error .capacity := by
  rw [parseVector_after_count, decide_eq_true h]
  rfl

/-- A count within DEPTH passes its check. -/
theorem parseVector_of_count_le {depth : Nat} {cnt : Word} (h : cnt.toNat ≤ depth) (s : List Byte) :
    parseVector depth (0x01 :: le64 cnt ++ s) = (expectWords cnt.toNat s >>= fun p => parseRegisters cnt p.1 p.2) := by
  rw [parseVector_after_count, decide_eq_false (Nat.not_lt.2 h)]
  rfl

theorem parseVector_after_words {depth : Nat} {cnt : Word} {words : List Word} (hlen : words.length = cnt.toNat)
    (h : cnt.toNat ≤ depth) (s : List Byte) :
    parseVector depth (0x01 :: le64 cnt ++ words.flatMap le64 ++ s) = parseRegisters cnt words s := by
  rw [List.append_assoc, parseVector_of_count_le h, ← hlen, expectWords_flatMap, ok_bind]

/-- Behind the tag 0x02 and NUM, the tag 0x03 is due and then a byte; nothing is checked before both have been read. -/
theorem parseRegisters_error_after_num (cnt num : Word) (words : List Word) {s : List Byte} {e : Status}
    (h : (expectTag 0x03 s >>= expectByte) = .error e) : parseRegisters cnt words (0x02 :: le64 num ++ s) = .error e := by
  rw [parseRegisters, List.cons_append, expectTag_cons, ok_bind, expectWord_le64, ok_bind]
  rcases bind_error h with h | ⟨s', h, h'⟩
  · simp only [h, error_bind]
  · simp only [h, h', ok_bind, error_bind]

/-- Settles O46: each read or check fails behind the bytes that the earlier ones have accepted. -/
theorem decodeChecksInStreamOrder : Obligations.DecodeChecksInStreamOrder := by
  intro s _ fails
  have fails_of {bytes : List Byte} {e : Status} (h : parseVector s.cfg.depth bytes = .error e) : fails bytes e :=
    decodeFails_of_parseVector h
  refine ⟨fails_of rfl, fun b rest hb => fails_of ?tag, fun rest hrest => fails_of ?count, fun cnt =>
    ⟨fun hlarge rest => fails_of (parseVector_capacity hlarge rest), fun hfit rest hrest => fails_of ?words, ?registers⟩⟩
  case tag => rw [parseVector, expectTag_of_ne hb, error_bind]
  case count => rw [parseVector, expectTag_cons, ok_bind, expectWord_short hrest, error_bind]
  case words => rw [parseVector_of_count_le hfit, expectWords_short _ _ hrest, error_bind]
  intro words hlen hfit head
  have fails_after {tail : List Byte} {e : Status} (h : parseRegisters cnt words tail = .error e) : fails (head ++ tail) e :=
    fails_of ((parseVector_after_words hlen hfit tail).trans h)
  have fails_after_num (num : Word) {tail : List Byte} {e : Status} (h : (expectTag 0x03 tail >>= expectByte) = .error e) :
      fails (head ++ 0x02 :: le64 num ++ tail) e := by
    rw [List.append_assoc]
    exact fails_after (parseRegisters_error_after_num cnt num words h)
  refine ⟨?noTag, fun b rest hb => fails_after ?wrongTag, fun rest hrest => fails_after ?shortNum, fun num =>
    ⟨?noBlenTag, fun b rest hb => fails_after_num num ?wrongBlenTag, fails_after_num num rfl⟩⟩
  case noTag => exact List.append_nil head ▸ fails_after (tail := []) rfl
  case wrongTag => rw [parseRegisters, expectTag_of_ne hb, error_bind]
  case shortNum => rw [parseRegisters, expectTag_cons, ok_bind, expectWord_short hrest, error_bind]
  case noBlenTag => exact List.append_nil (head ++ 0x02 :: le64 num) ▸ fails_after_num num (tail := []) rfl
  case wrongBlenTag => rw [expectTag_of_ne hb, error_bind]

/-! ### ENCODING_ERROR -/

theorem Completes.status_ne_encodingError {i : Instr} {s t : State} (h : Completes i s t) :
    ∃ resp, t.responses = s.responses ++ [resp] ∧ resp.status ≠ .encodingError := by
  cases h with
  | reads d p hu hi => exact ⟨_, rfl, by simp⟩
  | sets index value hi hu hlt => exact ⟨_, rfl, by simp⟩
  | makes num blen m hf hi => exact ⟨_, rfl, by simp⟩
  | fails e he hi => exact ⟨_, rfl, by rcases he with rfl | rfl <;> simp⟩
  | loses bytes hi e he => exact ⟨_, rfl, by rcases he with rfl | rfl <;> simp⟩

/-- Settles O42: an idle step and a reset answer nothing, and no other way a step can go on has that status. -/
theorem nothingAnswersEncodingError : Obligations.NothingAnswersEncodingError := by
  intro s t resp h hresp
  cases step_next h with
  | idle hp => simp at hresp
  | reset rest hp => simp at hresp
  | badOp r rest op hp hd =>
    obtain rfl := List.singleton_inj.1 (List.append_cancel_left hresp)
    simp
  | command r rest i t hp hd hx hc =>
    obtain ⟨resp', hresp', hne⟩ := hc.status_ne_encodingError
    obtain rfl := List.singleton_inj.1 (List.append_cancel_left (hresp'.symm.trans hresp))
    exact hne

end Sys2Proof.Machine
end

section
/-! SUPPORT. What the block does with nothing issued and with a reset (60_exceptions.md rule R115, 70_reset_and_hazards.md
rules R120, R121), the one request it refuses (rule R112, 42_construction.md rule R73), and what a command that fails leaves
behind (rule R105). -/

namespace Sys2Proof

/-- Only a payload of words stands for words. -/
theorem eq_words_of_wordPayload_ne_nil {p : Payload} (h : wordPayload p ≠ []) : p = .words (wordPayload p) := by
  cases p with
  | none => exact absurd rfl h
  | bytes s => exact absurd rfl h
  | words s => rfl

/-- The length check is NEWFROMARRAY's alone, and it is R73's bound. -/
theorem payloadTooLong_of_decode {r : Request} (h : decode r = .error .payloadTooLong) :
    opField r.cw = 8 ∧ 2 ^ 64 ≤ (wordPayload r.payload).length := by
  have h8 : opField r.cw = 8 := by
    unfold decode at h
    split at h
    case h_8 hop => exact BitVec.eq_of_toNat_eq hop
    all_goals simp at h
  rw [decode_of_opField_eight h8] at h
  split_ifs at h with hw
  exact ⟨h8, by simpa [Instr.wellFormed] using hw⟩

namespace Machine

/-! ### The step, by the oldest item of the queue -/

theorem step_of_pending_nil {s : State} (hp : s.pending = []) : step s = .next s := by
  rw [step, takeInput, hp]

theorem step_of_pending_reset {s : State} {rest : List HostInput} (hp : s.pending = .reset :: rest) :
    step s = .next (State.resetBlock { s with pending := rest }) := by
  rw [step, takeInput, hp]

theorem step_of_pending_command {s : State} {r : Request} {rest : List HostInput} (hp : s.pending = .command r :: rest) :
    step s = takeRequest r { s with pending := rest } := by
  rw [step, takeInput, hp]

/-- Settles O7: the reset rewrites the vector with the empty one and touches no other piece of state. -/
theorem stepWithoutACommand : Obligations.StepWithoutACommand :=
  fun _ => ⟨step_of_pending_nil, fun _ => step_of_pending_reset⟩

/-! ### Refusals -/

theorem decode_of_takeRequest_refused {r : Request} {s : State} {e : Refusal} (h : takeRequest r s = .refused e) :
    decode r = .error .payloadTooLong := by
  unfold takeRequest at h
  split at h
  · exact absurd h (exec_not_refused _ s e)
  · simp at h
  · assumption

/-- What a step refuses is a command whose payload the decoder finds too long. -/
theorem step_refused {s : State} {e : Refusal} (h : step s = .refused e) :
    ∃ r rest, s.pending = .command r :: rest ∧ decode r = .error .payloadTooLong := by
  cases hp : s.pending with
  | nil => simp [step_of_pending_nil hp] at h
  | cons x rest =>
    cases x with
    | reset => simp [step_of_pending_reset hp] at h
    | command r =>
      rw [step_of_pending_command hp] at h
      exact ⟨r, rest, rfl, decode_of_takeRequest_refused h⟩

/-- Settles O10: the decoder's length check is the one source of a refusal, and a payload that fails it is not empty. -/
theorem noLegalRequestIsRefused : Obligations.NoLegalRequestIsRefused := by
  intro s e h
  obtain ⟨r, rest, hp, hd⟩ := step_refused h
  obtain ⟨hop, hlen⟩ := payloadTooLong_of_decode hd
  have hne : wordPayload r.payload ≠ [] := List.ne_nil_of_length_pos (by omega)
  exact ⟨r, rest, _, hp, hop, eq_words_of_wordPayload_ne_nil hne, hlen⟩

/-! ### Failures -/

/-- The three ways any operation answers, a NEWFROMARRAY of any length among them: OK, an error and nothing else, or an error
after a DECODE that has lost the vector. -/
inductive Answers (i : Instr) (s t : State) : Prop where
  | succeeds (d : Word) (p : List Byte) (h : t.responses = s.responses ++ [{ status := .ok, data := d, payload := p }])
  | fails (e : Status) (h : t = s.raise e)
  | loses (bytes : List Byte) (hi : i = .decode bytes) (e : Status) (h : t = s.loseVector.raise e)

theorem Completes.answers {i : Instr} {s t : State} (h : Completes i s t) : Answers i s t := by
  cases h with
  | reads d p hu hi => exact .succeeds d p rfl
  | sets index value hi hu hlt => exact .succeeds 0 [] rfl
  | makes num blen m hf hi => exact .succeeds 0 [] rfl
  | fails e he hi => exact .fails e rfl
  | loses bytes hi e he => exact .loses bytes hi e rfl

/-- Only the length of NEWFROMARRAY's payload can make an operation ill-formed, and its two answers do not depend on that. -/
theorem exec_answers {i : Instr} {s t : State} (h : exec i s = .next t) : Answers i s t := by
  cases i with
  | newFromArray values =>
    rw [exec, execNewFromArray_eq] at h
    split_ifs at h
    · exact .fails .capacity (Host.Outcome.next.inj h).symm
    · cases h
      exact .succeeds 0 [] rfl
  | _ => exact (exec_completes rfl h).answers

/-- Settles O49: an answer that is not OK is raised, in the state the operation met or in the one a failed DECODE leaves. -/
theorem failedCommandsChangeNothing : Obligations.FailedCommandsChangeNothing := by
  intro i s t resp h hresp hne
  cases exec_answers h with
  | succeeds d p hok =>
    obtain rfl := List.singleton_inj.1 (List.append_cancel_left (hok.symm.trans hresp))
    exact absurd rfl hne
  | fails e ht =>
    subst ht
    obtain rfl := List.singleton_inj.1 (List.append_cancel_left hresp)
    exact ⟨rfl, rfl, fun _ => rfl⟩
  | loses bytes hi e ht =>
    subst ht
    obtain rfl := List.singleton_inj.1 (List.append_cancel_left hresp)
    exact ⟨rfl, rfl, fun hdecode => absurd hi (hdecode bytes)⟩

end Machine

end Sys2Proof
end

section
/-! SUPPORT. The host's preconditions (70_reset_and_hazards.md rules R124, R127): a command that meets them completes, and one
that does not faults. -/

namespace Sys2Proof.Machine

open Sys2Proof

/-- A rewriter asks nothing of the state it meets. -/
theorem Rewrites.inContract {i : Instr} (hi : Rewrites i) (s : State) : InContract i s := by
  obtain ⟨num, blen, rfl⟩ | ⟨bytes, rfl⟩ | ⟨values, rfl⟩ := hi <;> exact trivial

/-- A command that only reads needs a usable state and nothing more. -/
theorem answerRead_next {s : State} (hu : s.unusable = false) (d : Word) (p : List Byte) :
    s.answerRead d p = .next (s.respond .ok d p) := by
  rw [answerRead_eq, hu, if_neg Bool.false_ne_true]

/-- The contract is enough. A rewriter completes whatever its checks find: a failed one answers an error, which is no fault. -/
theorem exec_next_of_inContract {i : Instr} {s : State} (h : InContract i s) : ∃ t, exec i s = .next t := by
  cases i with
  | new num blen =>
    rw [exec, execNew_eq]
    split_ifs <;> exact ⟨_, rfl⟩
  | newFromArray values =>
    rw [exec, execNewFromArray_eq]
    split_ifs <;> exact ⟨_, rfl⟩
  | decode bytes =>
    cases hp : parseVector s.cfg.depth bytes with
    | ok r => exact ⟨_, execDecode_ok (rest := r.2) hp⟩
    | error e => exact ⟨_, execDecode_error hp⟩
  | get index =>
    obtain ⟨hu, hlt⟩ := h
    exact ⟨_, execGet_next hu hlt⟩
  | set index value =>
    obtain ⟨hu, hlt⟩ := h
    exact ⟨_, execSet_next hu hlt⟩
  | blen => exact ⟨_, answerRead_next h _ _⟩
  | num => exact ⟨_, answerRead_next h _ _⟩
  | encode => exact ⟨_, exec_encode_next h⟩

/-- The contract is needed. While the state is unspecified whatever does not stop is a rewriter, so in contract; in a usable
state only the index of a GET or SET can break the contract. -/
theorem exec_fault_of_not_inContract {i : Instr} {s : State} (h : ¬ InContract i s) : ∃ f, exec i s = .fault f := by
  cases hu : s.unusable with
  | true =>
    cases exec_whileUnusable i s.cfg.depth with
    | stops hstop => exact ⟨_, hstop s hu⟩
    | makes hi | fails hi | loses hi => exact absurd (hi.inContract s) h
  | false =>
    cases i with
    | get index =>
      have hle : s.num.toNat ≤ index.toNat := not_lt.1 fun hlt => h ⟨hu, hlt⟩
      obtain ⟨hget, -⟩ := (outOfContractCommandsFault s index 0).1 hu hle
      exact ⟨_, hget⟩
    | set index value =>
      have hle : s.num.toNat ≤ index.toNat := not_lt.1 fun hlt => h ⟨hu, hlt⟩
      obtain ⟨-, hset⟩ := (outOfContractCommandsFault s index value).1 hu hle
      exact ⟨_, hset⟩
    | blen | num | encode => exact absurd hu h
    | new | decode | newFromArray => exact absurd trivial h

/-- Settles O11: the contract is enough for a command to complete, and a command outside it faults. -/
theorem commandsCompleteExactlyInContract : Obligations.CommandsCompleteExactlyInContract :=
  fun _ _ => ⟨exec_next_of_inContract, exec_fault_of_not_inContract⟩

end Sys2Proof.Machine
end

section
/-! SUPPORT. The worked encodings of 30_encoding.md section 8 and the reserved word V-CMD-1 of 95_test_vectors.md part 2.8. -/

namespace Sys2Proof

/-- Settles O5: the first five words are what the encoder writes for their commands, and V-CMD-1 has opcode 9. -/
theorem workedEncodingsDecode : Obligations.WorkedEncodingsDecode := by
  refine ⟨?new, ?get, ?set, ?setAllOnes, ?newTooWide, ?reserved⟩
  case new => exact decode_encode (i := .new 5 3) rfl
  case get => exact decode_encode (i := .get 4) rfl
  case set => exact decode_encode (i := .set 1 7) rfl
  case setAllOnes => exact decode_encode (i := .set 0 0xFFFFFFFFFFFFFFFF) rfl
  case newTooWide => exact decode_encode (i := .new 5 65) rfl
  case reserved => exact decode_reserved (.inr (by decide))

end Sys2Proof
end
